-- ==== Sys2Proof/Word.lean ====
section
/-! DEFINITION. The words of the machine: bytes, 16-bit words, register numbers and time (spec/00_scope.md R5, R8, R9,
R53; 10_state.md R16, R19, R20, R24). -/

namespace Sys2Proof

/-- A memory byte or the contents of a general register: 8 bits (R16, R34). -/
abbrev Byte := BitVec 8

/-- An instruction word, and the contents of I, of pc and of a stack entry: 16 bits (R19, R20, R21, R51). -/
abbrev Word := BitVec 16

/-- The number of a general register, V0 to VF (R16); every value of a 4-bit field names one (R53). -/
abbrev RegIdx := Fin 16

/-- The code of a key, 0x0 to 0xF (R30, R117). -/
abbrev KeyIdx := Fin 16

/-- A time in seconds on the host's monotonic clock: rational seconds (R24, R30, decision D12). -/
abbrev Time := Rat

end Sys2Proof
end

