-- ==== Sys2Proof/Config.lean ====
section
/-! DEFINITION. The fixed sizes of the core (spec/00_scope.md R5) and its configuration parameters (R6): the points the
document leaves open. The parameters are plain data; State carries them unchanged, so a statement about every state is a
statement about every value of every parameter. `Params.spec` holds the values the spec takes. -/

namespace Sys2Proof

namespace Config

/-- FONT_BASE: the address of the font's first glyph (R5, R42). -/
@[simp] def fontBase : Nat := 0x050

/-- The size of one font glyph in bytes (R42, R96). -/
@[simp] def glyphSize : Nat := 5

/-- PROGRAM_BASE: where the program image is loaded and where execution starts (R5, R127). -/
@[simp] def programBase : Nat := 0x200

/-- PROGRAM_MAX: the largest program image, in bytes (R5, R127). -/
@[simp] def programMax : Nat := 3584

/-- TICK_PERIOD: one sixtieth of a second (R5, R115). -/
def tickPeriod : Time := 1 / 60

/-- The conventional font's glyphs 0 to 7, five bytes each, top row first (R42). PRESUMED: the byte values are the
family's, not the source's (log entry 3). -/
def fontLow : List Byte :=
  [0xF0, 0x90, 0x90, 0x90, 0xF0] ++ [0x20, 0x60, 0x20, 0x20, 0x70] ++ [0xF0, 0x10, 0xF0, 0x80, 0xF0] ++
  [0xF0, 0x10, 0xF0, 0x10, 0xF0] ++ [0x90, 0x90, 0xF0, 0x10, 0x10] ++ [0xF0, 0x80, 0xF0, 0x10, 0xF0] ++
  [0xF0, 0x80, 0xF0, 0x90, 0xF0] ++ [0xF0, 0x10, 0x20, 0x40, 0x40]

/-- The conventional font's glyphs 8 to F (R42). PRESUMED, as `fontLow`. -/
def fontHigh : List Byte :=
  [0xF0, 0x90, 0xF0, 0x90, 0xF0] ++ [0xF0, 0x90, 0xF0, 0x10, 0xF0] ++ [0xF0, 0x90, 0xF0, 0x90, 0x90] ++
  [0xE0, 0x90, 0xE0, 0x90, 0xE0] ++ [0xF0, 0x80, 0x80, 0x80, 0xF0] ++ [0xE0, 0x90, 0x90, 0x90, 0xE0] ++
  [0xF0, 0x80, 0xF0, 0x80, 0xF0] ++ [0xF0, 0x80, 0xF0, 0x80, 0x80]

/-- The default value of the parameter FONT: the table of R42. -/
def fontDefault : Vector Byte 80 := ⟨(fontLow ++ fontHigh).toArray, rfl⟩

end Config

/-- The parameter ALU_VF_ORDER (R79): in which order 8xy4, 8xy5, 8xy6, 8xy7 and 8xyE write their flag and their
result. -/
inductive AluVfOrder where
  /-- The flag is written first; the result statement then reads the registers again. -/
  | sequential
  /-- Both operands are read first; the result is written, then the flag. -/
  | resultThenFlag
  deriving DecidableEq, Repr

/-- The configuration parameters of R6, fixed for one machine. -/
structure Params where
  /-- ALU_VF_ORDER (R79, D3). -/
  aluVfOrder : AluVfOrder
  /-- FX29_MASK_DIGIT (R96, D2): Fx29 uses the low nibble of V[x] only. -/
  fx29MaskDigit : Bool
  /-- DECODE_OP0_IGNORE_X (R58, D4): op 0 is told apart by its low byte alone. -/
  decodeOp0IgnoreX : Bool
  /-- DECODE_5_9_IGNORE_N (R58, D5): 5xyN and 9xyN skip for every N. -/
  decode59IgnoreN : Bool
  /-- FONT (R42, D21): the 80 bytes of the font. -/
  font : Vector Byte 80
  deriving DecidableEq, Repr

/-- The values the spec takes for the parameters (R6). -/
def Params.spec : Params where
  aluVfOrder := .sequential
  fx29MaskDigit := true
  decodeOp0IgnoreX := false
  decode59IgnoreN := false
  font := Config.fontDefault

end Sys2Proof
end

