-- ==== Sys2Proof/Syntax.lean ====
section
/-! DEFINITION. The instructions: one constructor per row of spec/opcode_table.json, with the fields its format names
(spec/30_encoding.md R52, R54). -/

namespace Sys2Proof

/-- The 35 instructions. `x` and `y` are register numbers, `n` the nibble, `kk` the byte and `nnn` the 12-bit address
immediate (R52). A word that decodes to none of them is UNKNOWN (R55, R56) and has no constructor here. -/
inductive Instr where
  /-- 00E0, CLS (R65). -/
  | cls
  /-- 00EE, RET (R70). -/
  | ret
  /-- 0nnn, SYS (R69). -/
  | sys (nnn : BitVec 12)
  /-- 1nnn, JP (R71). -/
  | jp (nnn : BitVec 12)
  /-- 2nnn, CALL (R72). -/
  | call (nnn : BitVec 12)
  /-- 3xkk, SE_VB (R73). -/
  | seVB (x : RegIdx) (kk : Byte)
  /-- 4xkk, SNE_VB (R74). -/
  | sneVB (x : RegIdx) (kk : Byte)
  /-- 5xy0, SE_VV (R75). -/
  | seVV (x y : RegIdx)
  /-- 6xkk, LD_VB (R80). -/
  | ldVB (x : RegIdx) (kk : Byte)
  /-- 7xkk, ADD_VB (R81). -/
  | addVB (x : RegIdx) (kk : Byte)
  /-- 8xy0, LD_VV (R82). -/
  | ldVV (x y : RegIdx)
  /-- 8xy1, OR (R83). -/
  | orVV (x y : RegIdx)
  /-- 8xy2, AND (R84). -/
  | andVV (x y : RegIdx)
  /-- 8xy3, XOR (R85). -/
  | xorVV (x y : RegIdx)
  /-- 8xy4, ADD_VV (R86). -/
  | addVV (x y : RegIdx)
  /-- 8xy5, SUB (R87). -/
  | sub (x y : RegIdx)
  /-- 8xy6, SHR (R88); `y` is encoded and ignored. -/
  | shr (x y : RegIdx)
  /-- 8xy7, SUBN (R89). -/
  | subn (x y : RegIdx)
  /-- 8xyE, SHL (R90); `y` is encoded and ignored. -/
  | shl (x y : RegIdx)
  /-- 9xy0, SNE_VV (R76). -/
  | sneVV (x y : RegIdx)
  /-- Annn, LD_I (R94). -/
  | ldI (nnn : BitVec 12)
  /-- Bnnn, JP_V0 (R77). -/
  | jpV0 (nnn : BitVec 12)
  /-- Cxkk, RND (R91). -/
  | rnd (x : RegIdx) (kk : Byte)
  /-- Dxyn, DRW (R66). -/
  | drw (x y : RegIdx) (n : BitVec 4)
  /-- Ex9E, SKP (R101). -/
  | skp (x : RegIdx)
  /-- ExA1, SKNP (R102). -/
  | sknp (x : RegIdx)
  /-- Fx07, LD_V_DT (R103). -/
  | ldVDT (x : RegIdx)
  /-- Fx0A, LD_V_K (R104). -/
  | ldVK (x : RegIdx)
  /-- Fx15, LD_DT_V (R105). -/
  | ldDTV (x : RegIdx)
  /-- Fx18, LD_ST_V (R106). -/
  | ldSTV (x : RegIdx)
  /-- Fx1E, ADD_I_V (R95). -/
  | addIV (x : RegIdx)
  /-- Fx29, LD_F_V (R96). -/
  | ldFV (x : RegIdx)
  /-- Fx33, LD_B_V (R97). -/
  | ldBV (x : RegIdx)
  /-- Fx55, LD_MEM_V (R98). -/
  | ldMemV (x : RegIdx)
  /-- Fx65, LD_V_MEM (R99). -/
  | ldVMem (x : RegIdx)
  deriving DecidableEq, Repr

end Sys2Proof
end

