-- ==== Sys2Proof/WellFormed.lean ====
section
/-! DEFINITION. Which instruction terms stand for a word. The field types already bound every field (R53), so the one
check left is on SYS: an op-0 word that the decoder gives to CLS or RET is not a SYS word (spec/30_encoding.md R55, R57,
R58). -/

namespace Sys2Proof

/-- `nnn` is an op-0 address field that the decoder gives to SYS, not to CLS or RET (R55, R57, R58). -/
def sysField (p : Params) (nnn : BitVec 12) : Bool :=
  if p.decodeOp0IgnoreX then nnn.extractLsb' 0 8 != 0xE0 && nnn.extractLsb' 0 8 != 0xEE
  else nnn != 0x0E0 && nnn != 0x0EE

/-- The instruction is one the decoder can give under the parameters `p`. -/
def WellFormed (p : Params) : Instr → Bool
  | .sys nnn => sysField p nnn
  | .cls | .ret | .jp _ | .call _ | .seVB _ _ | .sneVB _ _ | .seVV _ _ | .ldVB _ _ | .addVB _ _ | .ldVV _ _
  | .orVV _ _ | .andVV _ _ | .xorVV _ _ | .addVV _ _ | .sub _ _ | .shr _ _ | .subn _ _ | .shl _ _ | .sneVV _ _
  | .ldI _ | .jpV0 _ | .rnd _ _ | .drw _ _ _ | .skp _ | .sknp _ | .ldVDT _ | .ldVK _ | .ldDTV _ | .ldSTV _
  | .addIV _ | .ldFV _ | .ldBV _ | .ldMemV _ | .ldVMem _ => true

end Sys2Proof
end

