-- ==== Sys2Proof/Decode.lean ====
section
/-! DEFINITION. The decoder (spec/30_encoding.md R52, R55 to R59), total on every word and on every list of bytes, and
after it the encoder, written from the same rules and from spec/opcode_table.json. -/

namespace Sys2Proof

/-- Why the decoder gives no instruction. The first five are the classes of UNKNOWN words of R56; a machine cycle runs
them as a no-op. -/
inductive Reject where
  /-- `5xyN`, N ≠ 0. -/
  | unknown5xyN
  /-- `8xyN`, N one of 8, 9, A, B, C, D, F. -/
  | unknown8xyN
  /-- `9xyN`, N ≠ 0. -/
  | unknown9xyN
  /-- `ExKK`, KK neither 9E nor A1. -/
  | unknownExKK
  /-- `FxKK`, KK none of 07, 0A, 15, 18, 1E, 29, 33, 55, 65. -/
  | unknownFxKK
  /-- Fewer than the two bytes of an instruction (R59). -/
  | truncated
  deriving DecidableEq, Repr

/-- What the decoder gives: one of the 35 instructions, or UNKNOWN (R55) with its class. -/
inductive Decoded where
  | accept (i : Instr)
  | reject (why : Reject)
  deriving DecidableEq, Repr

/-- The instruction, where there is one. -/
def Decoded.instr? : Decoded → Option Instr
  | .accept i => some i
  | .reject _ => none

/-! ### The fields of a word (R52) -/

/-- `op` = w[15:12]. -/
def opField (w : Word) : BitVec 4 := w.extractLsb' 12 4
/-- `x` = w[11:8], a register number. -/
def xField (w : Word) : RegIdx := (w.extractLsb' 8 4).toFin
/-- `y` = w[7:4], a register number. -/
def yField (w : Word) : RegIdx := (w.extractLsb' 4 4).toFin
/-- `n` = w[3:0]. -/
def nField (w : Word) : BitVec 4 := w.extractLsb' 0 4
/-- `kk` = w[7:0]. -/
def kkField (w : Word) : Byte := w.extractLsb' 0 8
/-- `nnn` = w[11:0]. -/
def nnnField (w : Word) : BitVec 12 := w.extractLsb' 0 12

/-! ### Decode (R55) -/

/-- Op 0 (R55, R57): CLS and RET before the catch-all SYS. -/
def decodeOp0 (p : Params) (w : Word) : Decoded :=
  if w = 0x00E0 ∨ (kkField w = 0xE0 ∧ p.decodeOp0IgnoreX) then .accept .cls
  else if w = 0x00EE ∨ (kkField w = 0xEE ∧ p.decodeOp0IgnoreX) then .accept .ret
  else .accept (.sys (nnnField w))

/-- Op 5 (R55, R58). -/
def decodeOp5 (p : Params) (w : Word) : Decoded :=
  if nField w = 0 ∨ p.decode59IgnoreN then .accept (.seVV (xField w) (yField w)) else .reject .unknown5xyN

/-- Op 9 (R55, R58). -/
def decodeOp9 (p : Params) (w : Word) : Decoded :=
  if nField w = 0 ∨ p.decode59IgnoreN then .accept (.sneVV (xField w) (yField w)) else .reject .unknown9xyN

/-- Op 8, by its low nibble (R55). -/
def decodeOp8 (w : Word) : Decoded :=
  let x := xField w
  let y := yField w
  match (nField w).toNat with
  | 0x0 => .accept (.ldVV x y)
  | 0x1 => .accept (.orVV x y)
  | 0x2 => .accept (.andVV x y)
  | 0x3 => .accept (.xorVV x y)
  | 0x4 => .accept (.addVV x y)
  | 0x5 => .accept (.sub x y)
  | 0x6 => .accept (.shr x y)
  | 0x7 => .accept (.subn x y)
  | 0xE => .accept (.shl x y)
  | _ => .reject .unknown8xyN

/-- Op E, by its low byte (R55). -/
def decodeOpE (w : Word) : Decoded :=
  match (kkField w).toNat with
  | 0x9E => .accept (.skp (xField w))
  | 0xA1 => .accept (.sknp (xField w))
  | _ => .reject .unknownExKK

/-- Op F, by its low byte (R55). -/
def decodeOpF (w : Word) : Decoded :=
  let x := xField w
  match (kkField w).toNat with
  | 0x07 => .accept (.ldVDT x)
  | 0x0A => .accept (.ldVK x)
  | 0x15 => .accept (.ldDTV x)
  | 0x18 => .accept (.ldSTV x)
  | 0x1E => .accept (.addIV x)
  | 0x29 => .accept (.ldFV x)
  | 0x33 => .accept (.ldBV x)
  | 0x55 => .accept (.ldMemV x)
  | 0x65 => .accept (.ldVMem x)
  | _ => .reject .unknownFxKK

/-- The decoder of R55: it reads no state but the parameters, and maps every word to exactly one of the 35 instructions
or to UNKNOWN. -/
def decode (p : Params) (w : Word) : Decoded :=
  match (opField w).toNat with
  | 0x0 => decodeOp0 p w
  | 0x1 => .accept (.jp (nnnField w))
  | 0x2 => .accept (.call (nnnField w))
  | 0x3 => .accept (.seVB (xField w) (kkField w))
  | 0x4 => .accept (.sneVB (xField w) (kkField w))
  | 0x5 => decodeOp5 p w
  | 0x6 => .accept (.ldVB (xField w) (kkField w))
  | 0x7 => .accept (.addVB (xField w) (kkField w))
  | 0x8 => decodeOp8 w
  | 0x9 => decodeOp9 p w
  | 0xA => .accept (.ldI (nnnField w))
  | 0xB => .accept (.jpV0 (nnnField w))
  | 0xC => .accept (.rnd (xField w) (kkField w))
  | 0xD => .accept (.drw (xField w) (yField w) (nField w))
  | 0xE => decodeOpE w
  | _ => decodeOpF w

/-! ### Bytes: big-endian words of two bytes (R37, R38, R51, R59) -/

/-- The instruction word of two consecutive bytes, the one at the lower address first (R37). -/
def wordOfBytes (hi lo : Byte) : Word := hi ++ lo

/-- The two bytes of a word, in the order of their addresses (R38). -/
def bytesOfWord (w : Word) : List Byte := [w.extractLsb' 8 8, w.extractLsb' 0 8]

/-- Decode the instruction at the front of a list of bytes, and give the bytes after it: always two bytes (R59). -/
def decodeBytes (p : Params) : List Byte → Decoded × List Byte
  | hi :: lo :: rest => (decode p (wordOfBytes hi lo), rest)
  | [] => (.reject .truncated, [])
  | [b] => (.reject .truncated, [b])

/-- The word a row of spec/opcode_table.json gives, bit 0 the word's least significant bit; the bits above `nbits`
are 0. -/
def tableWord (nbits w : Nat) : Word := BitVec.ofNat 16 (w % 2 ^ min nbits 16)

/-- The instruction the decoder reads, under the spec's parameter values, from an instruction whose bits are `w` as
spec/opcode_table.json numbers them: the word is laid out big-endian and given to the decoder. -/
def decodeTableWord (nbits w : Nat) : Option Instr :=
  (decodeBytes Params.spec (bytesOfWord (tableWord nbits w))).1.instr?

/-! ### Encode: the word of a well-formed instruction, from the patterns of R54 and spec/opcode_table.json -/

/-- The 4-bit field that names a register. -/
def regField (x : RegIdx) : BitVec 4 := BitVec.ofFin x

/-- Format NNN: op and a 12-bit address. -/
def formNNN (op : BitVec 4) (nnn : BitVec 12) : Word := op ++ nnn
/-- Format XKK: op, x and a byte; and format X, whose byte is fixed. -/
def formXKK (op : BitVec 4) (x : RegIdx) (kk : Byte) : Word := op ++ (regField x ++ kk)
/-- Format XYN: op, x, y and a nibble; and formats XY and XY-, whose nibble is fixed. -/
def formXYN (op : BitVec 4) (x y : RegIdx) (n : BitVec 4) : Word := op ++ (regField x ++ (regField y ++ n))

/-- The word of an instruction. -/
def encode : Instr → Word
  | .cls => 0x00E0
  | .ret => 0x00EE
  | .sys nnn => formNNN 0x0 nnn
  | .jp nnn => formNNN 0x1 nnn
  | .call nnn => formNNN 0x2 nnn
  | .seVB x kk => formXKK 0x3 x kk
  | .sneVB x kk => formXKK 0x4 x kk
  | .seVV x y => formXYN 0x5 x y 0x0
  | .ldVB x kk => formXKK 0x6 x kk
  | .addVB x kk => formXKK 0x7 x kk
  | .ldVV x y => formXYN 0x8 x y 0x0
  | .orVV x y => formXYN 0x8 x y 0x1
  | .andVV x y => formXYN 0x8 x y 0x2
  | .xorVV x y => formXYN 0x8 x y 0x3
  | .addVV x y => formXYN 0x8 x y 0x4
  | .sub x y => formXYN 0x8 x y 0x5
  | .shr x y => formXYN 0x8 x y 0x6
  | .subn x y => formXYN 0x8 x y 0x7
  | .shl x y => formXYN 0x8 x y 0xE
  | .sneVV x y => formXYN 0x9 x y 0x0
  | .ldI nnn => formNNN 0xA nnn
  | .jpV0 nnn => formNNN 0xB nnn
  | .rnd x kk => formXKK 0xC x kk
  | .drw x y n => formXYN 0xD x y n
  | .skp x => formXKK 0xE x 0x9E
  | .sknp x => formXKK 0xE x 0xA1
  | .ldVDT x => formXKK 0xF x 0x07
  | .ldVK x => formXKK 0xF x 0x0A
  | .ldDTV x => formXKK 0xF x 0x15
  | .ldSTV x => formXKK 0xF x 0x18
  | .addIV x => formXKK 0xF x 0x1E
  | .ldFV x => formXKK 0xF x 0x29
  | .ldBV x => formXKK 0xF x 0x33
  | .ldMemV x => formXKK 0xF x 0x55
  | .ldVMem x => formXKK 0xF x 0x65

/-- The two bytes of an instruction as they lie in memory (R38). -/
def encodeBytes (i : Instr) : List Byte := bytesOfWord (encode i)

end Sys2Proof
end

