-- ==== Sys2Proof/Machine/State.lean ====
section
/-! DEFINITION. The state of the core (spec/10_state.md R15 to R33), the operations of the host that still wait to be
performed (R31), and the state after reset (R32). Everything is plain data. -/

namespace Sys2Proof.Machine

/-! ### Faults and status (R27, R107) -/

/-- The kinds of fault of R107. The core takes a fault by entering the status Faulted (R108). -/
inductive FaultKind where
  | stackOverflow
  | stackUnderflow
  | memoryOutOfRange
  | pcOutOfRange
  | indexOutOfRange
  deriving DecidableEq, Repr

/-- The fault record (R27): the kind, the address the faulting cycle fetched from, and the offending address, register
value or stack depth. -/
structure FaultRecord where
  kind : FaultKind
  faultPc : Word
  faultValue : Nat
  deriving DecidableEq, Repr

/-- The status of the core (R27). -/
inductive Status where
  /-- After reset, before the program is loaded. -/
  | unloaded
  /-- After a successful load. -/
  | running
  /-- After a fault; final for the session. -/
  | faulted (record : FaultRecord)
  deriving DecidableEq, Repr

/-- The two load errors of R128. -/
inductive LoadError where
  /-- The host could supply no bytes; the core sees no Load. -/
  | loadUnreadable
  /-- The image is longer than 3584 bytes. -/
  | loadTooLarge
  deriving DecidableEq, Repr

/-- What a Load gives back to the host (R127, R128, R130). -/
inductive LoadResult where
  /-- The image was copied and the status is Running. -/
  | loaded
  /-- The status was not Unloaded: the Load is refused and has no effect (R130). -/
  | loadRefused
  /-- A load error; nothing was copied (R128). -/
  | loadFailed (e : LoadError)
  deriving DecidableEq, Repr

/-! ### The host's side (R30, R31) -/

/-- The inputs of one cycle, sampled once and constant for the cycle (R30), with the two draws of R6 that a cycle may
need. -/
structure CycleInput where
  /-- `keys[k]`: key k is held (R30, R117). -/
  keys : Vector Bool 16
  /-- The host's clock (R30, R121). -/
  now : Time
  /-- The random byte (R30, R119). -/
  rnd : Byte
  /-- The draw behind `key_pick` (R6, R104): the key taken where it is held; see `pickKey`. -/
  keyDraw : KeyIdx
  /-- The draw `tick_at_boundary` (R6, R115). -/
  tickAtBoundary : Bool
  deriving DecidableEq, Repr

/-- No key held, and every other input at its least, at the time `now`. -/
def CycleInput.quiet (now : Time) : CycleInput where
  keys := Vector.replicate 16 false
  now := now
  rnd := 0
  keyDraw := 0
  tickAtBoundary := false

/-- One operation of the host (R31). -/
inductive HostCall where
  /-- `Reset(now0)` (R126). -/
  | reset (now0 : Time)
  /-- `Load(bytes)` (R127). -/
  | load (image : List Byte)
  /-- The host's file collaborator supplied no bytes (R128): the host reports it and performs no Load. -/
  | loadUnreadable
  /-- `Cycle(keys, now, rnd)` (R62). -/
  | cycle (input : CycleInput)
  deriving DecidableEq, Repr

/-! ### The state (R15) -/

/-- Memory as the list of the bytes that differ from what reset left (`Memory.background`), by rising address. -/
abbrev Memory := List Host.Cell

/-- The framebuffer: 32 rows of 64 one-bit pixels, `fb[r][c]` (R25). -/
abbrev Framebuffer := Vector (Vector Bool 64) 32

/-- The state of the machine: the state of R15, the output `changed` of the last cycle (R26), the parameters of R6, and
the host's side, which is the model's own (log entries 1, 2, 4). -/
structure State where
  /-- `mem[0..4095]` (R34). -/
  mem : Memory
  /-- `V[0..15]` (R16); V[15] is also the flag VF (R17). -/
  V : Vector Byte 16
  /-- The index register (R19). -/
  I : Word
  /-- The program counter (R20). -/
  pc : Word
  /-- `stack[0..15]` (R21). -/
  stack : Vector Word 16
  /-- The number of return addresses held, 0 to 16 (R21). -/
  sp : Fin 17
  /-- The delay timer (R22). -/
  DT : Byte
  /-- The sound timer (R23). -/
  ST : Byte
  /-- The time of the last timer step that was due, of the last Fx15, or of reset (R24). -/
  lastTick : Time
  /-- The framebuffer (R25). -/
  fb : Framebuffer
  /-- Unloaded, Running or Faulted (R27). -/
  status : Status
  /-- The output `changed` of the last cycle (R26). -/
  changed : Bool
  /-- What the last Load gave back to the host, where there was one in this session (R127, R128). -/
  lastLoad : Option LoadResult
  /-- The parameters of R6; no operation changes them. -/
  params : Params
  /-- The inputs of the cycle that runs or ran last; after reset their `now` is `now0` (R30). -/
  input : CycleInput
  /-- The operations the host has still to perform, the next one first (R31). -/
  calls : List HostCall
  deriving DecidableEq, Repr

/-- What stops the machine with a fault of the model's own: NOTHING does, so there is no constructor. The faults of the
spec (R107) are taken: they lead to a next state whose status is Faulted with the fault record (R108). -/
inductive Fault
  deriving DecidableEq, Repr

/-- Why the model gives no next state. -/
inductive Refusal where
  /-- An instruction without a meaning: raised by a refused arm of `exec`, of which this model has none. Safe. -/
  | notModelled (mnemonic : String)
  /-- Raised by a Cycle, for no instruction in particular, when its `now` is below the latest one supplied: the host is
  assumed never to do so, and the model has no move for it (R30, R125). Safe: the model stops. -/
  | clockRanBackward
  deriving DecidableEq, Repr

/-- The state that `Reset(now0)` constructs (R32, R126), for the parameters `p`. -/
def State.resetAt (p : Params) (now0 : Time) : State where
  mem := []
  V := Vector.replicate 16 0
  I := 0
  pc := 0x200
  stack := Vector.replicate 16 0
  sp := 0
  DT := 0
  ST := 0
  lastTick := now0
  fb := Vector.replicate 32 (Vector.replicate 64 false)
  status := .unloaded
  changed := false
  lastLoad := none
  params := p
  input := CycleInput.quiet now0
  calls := []

/-- The machine right after reset: the spec's parameter values, and DESIGN CHOICE `now0` = 0 (log entry 5). -/
def State.reset : State := State.resetAt Params.spec 0

end Sys2Proof.Machine
end

