-- ==== Sys2Proof/Machine/Memory.lean ====
section
/-! DEFINITION. Memory as data: what an unlisted address reads as, reading and writing one byte, and the canonical form
(spec/20_memory.md R34, R41, R42; 10_state.md R32). -/

namespace Sys2Proof.Machine

/-- What an address reads as while no entry lists it: what reset left there, the font at 0x050 to 0x09F and 0 everywhere
else (R32, R41, R42). -/
def Memory.background (font : Vector Byte 80) (a : Nat) : Byte :=
  if h : 0x050 ≤ a ∧ a < 0x0A0 then font[a - 0x050] else 0

/-- The byte at an address: the listed one, or the background. -/
def Memory.read (font : Vector Byte 80) : Memory → Nat → Byte
  | [], a => Memory.background font a
  | (k, u) :: m, a => if a = k then u else Memory.read font m a

/-- The memory with no entry for the address: it reads as the background there. -/
def Memory.erase (m : Memory) (a : Nat) : Memory := m.filter fun c => c.1 != a

/-- A further entry, in its place by rising address. -/
def Memory.insert : Memory → Nat → Byte → Memory
  | [], a, v => [(a, v)]
  | (k, u) :: m, a, v => if a < k then (a, v) :: (k, u) :: m else (k, u) :: Memory.insert m a v

/-- The memory with `v` at the address `a`: the entry for `a` is replaced, and there is none where `v` is what the
background gives. -/
def Memory.write (font : Vector Byte 80) (m : Memory) (a : Nat) (v : Byte) : Memory :=
  if v = Memory.background font a then m.erase a else (m.erase a).insert a v

/-- The canonical form: addresses strictly rise and lie in 0x000 to 0xFFF (R34), and no entry equals the background. -/
abbrev Memory.wf (font : Vector Byte 80) (m : Memory) : Prop :=
  m.Pairwise (fun c d => c.1 < d.1) ∧ ∀ c ∈ m, c.1 ≤ 0xFFF ∧ c.2 ≠ Memory.background font c.1

end Sys2Proof.Machine
end

