-- ==== Sys2Proof/Machine/Ops.lean ====
section
/-! DEFINITION. The operations the instructions share: raising and taking a fault (spec/00_scope.md R13;
60_exceptions.md R107, R108), the memory primitives (20_memory.md R35 to R37, R39), writing pc and I
(10_state.md R19, R20), the skip (41_control_flow.md R68) and the call stack (10_state.md R21). An operation that may
raise answers `Except Raise`, and the first raise ends it (R13). -/

namespace Sys2Proof.Machine

/-! ### Raising and taking a fault -/

/-- The code of a fault kind (R107, decision D7). -/
def FaultKind.code : FaultKind → Nat
  | .stackOverflow => 1
  | .stackUnderflow => 2
  | .memoryOutOfRange => 3
  | .pcOutOfRange => 4
  | .indexOutOfRange => 5

/-- The code of a load error (R128). -/
def LoadError.code : LoadError → Nat
  | .loadUnreadable => 16
  | .loadTooLarge => 17

/-- What `raise <Fault>(info)` names: the kind and the `fault_value` (R13, R107). -/
structure Raise where
  kind : FaultKind
  value : Nat
  deriving DecidableEq, Repr

/-- TAKING A FAULT (R108): given the state as it was at the start of the cycle but for pc, and the address `pc0` the
cycle fetched from, pc is again `pc0`, `changed` is 0, and the status is Faulted with the record of R27. Nothing else
changes: no state is saved and control goes nowhere (R110). -/
def State.takeFault (s : State) (pc0 : Word) (r : Raise) : State :=
  { s with
    pc := pc0
    changed := false
    status := .faulted { kind := r.kind, faultPc := pc0, faultValue := r.value } }

/-- The address of the instruction that executes: pc is already two past it (R20). -/
def State.instrAddr (s : State) : Word := s.pc - 2

/-- The end of an instruction's execution from `s`: the state its statements left, or, when one of them raised, the
fault taken from `s`, so that nothing the instruction had done remains (R13, R108). There is no return from a fault
(R111). -/
def complete (s : State) : Except Raise State → Host.Outcome State Fault Refusal
  | .ok t => .next t
  | .error r => .next (s.takeFault s.instrAddr r)

/-! ### Memory (R35 to R37, R39) -/

/-- The byte at an address, unchecked. -/
def State.byteAt (s : State) (a : Nat) : Byte := Memory.read s.params.font s.mem a

/-- The state with `v` at an address, unchecked. -/
def State.setByte (s : State) (a : Nat) (v : Byte) : State :=
  { s with mem := Memory.write s.params.font s.mem a v }

/-- `MemRead(a, 1)` (R35). -/
def memRead (s : State) (a : Nat) : Except Raise Byte :=
  if a > 0xFFF then .error ⟨.memoryOutOfRange, a⟩ else .ok (s.byteAt a)

/-- `MemWrite(a, 1, v)` (R36). -/
def memWrite (s : State) (a : Nat) (v : Byte) : Except Raise State :=
  if a > 0xFFF then .error ⟨.memoryOutOfRange, a⟩ else .ok (s.setByte a v)

/-- `Fetch16(a)` (R37): the high byte is the one at the lower address. -/
def fetch16 (s : State) (a : Nat) : Except Raise Word := do
  let hi ← memRead s a
  let lo ← memRead s (a + 1)
  return wordOfBytes hi lo

/-- `n` byte reads at a, a+1, … in ascending order (R39). -/
def readBytes (s : State) (a : Nat) : Nat → Except Raise (List Byte)
  | 0 => .ok []
  | n + 1 => do
    let b ← memRead s a
    let bs ← readBytes s (a + 1) n
    return b :: bs

/-- Byte writes at a, a+1, … in ascending order (R39). -/
def writeBytes (s : State) (a : Nat) : List Byte → Except Raise State
  | [] => .ok s
  | b :: bs => do
    let t ← memWrite s a b
    writeBytes t (a + 1) bs

/-- The check Fx33, Fx55 and Fx65 make before they write anything: the last of their addresses is in memory, else
MemoryOutOfRange(0x1000), the first address past the end (R93, R97 to R99). -/
def checkLast (last : Nat) : Except Raise Unit :=
  if last > 0xFFF then .error ⟨.memoryOutOfRange, 0x1000⟩ else .ok ()

/-! ### pc and I (R19, R20, R63, R68) -/

/-- A write of pc that is bounds-checked: a value above 0xFFF raises PcOutOfRange (R20, R63, R68, R77). -/
def writePc (s : State) (t : Nat) : Except Raise State :=
  if t > 0xFFF then .error ⟨.pcOutOfRange, t⟩ else .ok { s with pc := BitVec.ofNat 16 t }

/-- `Skip()` (R68). -/
def skip (s : State) : Except Raise State := writePc s (s.pc.toNat + 2)

/-- A skip where the condition holds, else nothing (R73 to R76, R101, R102). -/
def skipIf (s : State) (c : Bool) : Except Raise State := if c then skip s else .ok s

/-- A write of I that is bounds-checked: a value above 0xFFF raises IndexOutOfRange (R19, R95). -/
def writeI (s : State) (t : Nat) : Except Raise State :=
  if t > 0xFFF then .error ⟨.indexOutOfRange, t⟩ else .ok { s with I := BitVec.ofNat 16 t }

/-! ### The call stack (R21) -/

/-- `Push(a)` (R21). -/
def push (s : State) (a : Word) : Except Raise State :=
  if h : s.sp.val < 16 then
    .ok { s with stack := s.stack.set s.sp.val a, sp := ⟨s.sp.val + 1, by omega⟩ }
  else .error ⟨.stackOverflow, s.sp.val⟩

/-- `Pop()` (R21): the popped address and the state after. The entry keeps its value (R70). -/
def pop (s : State) : Except Raise (Word × State) :=
  if h : 0 < s.sp.val then
    .ok (s.stack[s.sp.val - 1], { s with sp := ⟨s.sp.val - 1, by omega⟩ })
  else .error ⟨.stackUnderflow, s.sp.val⟩

end Sys2Proof.Machine
end

