-- ==== Sys2Proof/Machine/Operands.lean ====
section
/-! DEFINITION. The operand forms: general registers (spec/10_state.md R16), immediates (30_encoding.md R53), the bytes
of V0 to Vx (43_memory_index.md R98, R99), the decimal digits of Fx33 (R97), the glyph address of Fx29 (R96), and the
keys (44_input_timers.md R100, R104). -/

namespace Sys2Proof.Machine

/-- `V[x]` (R16). -/
def State.getV (s : State) (x : RegIdx) : Byte := s.V[x]

/-- `V[x] <- b`; no register is hard-wired (R16). -/
def State.setV (s : State) (x : RegIdx) (b : Byte) : State := { s with V := s.V.set x b }

/-- The number of VF, the register that is also the flag (R17). -/
def VF : RegIdx := 15

/-- `zext_16(nnn)`: an address immediate as a 16-bit value (R53). -/
def zext16 (nnn : BitVec 12) : Word := nnn.setWidth 16

/-- `V[0]`, …, `V[x]`, in this order (R98). -/
def State.regsUpTo (s : State) (x : RegIdx) : List Byte := s.V.toList.take (x.val + 1)

/-- `V[k] <- b` for the bytes of a list, from register `k` on, in ascending order (R99). -/
def State.loadRegs (s : State) (k : Nat) : List Byte → State
  | [] => s
  | b :: bs => State.loadRegs { s with V := s.V.setIfInBounds k b } (k + 1) bs

/-- The hundreds, tens and ones digit of a byte (R97). -/
def decimalDigits (v : Byte) : List Byte := [v / 100, (v / 10) % 10, v % 10]

/-- The address of the glyph Fx29 selects, under FX29_MASK_DIGIT (R96). -/
def glyphAddr (p : Params) (v : Byte) : Word :=
  let d := if p.fx29MaskDigit then v &&& 0xF else v
  BitVec.ofNat 16 (Config.fontBase + Config.glyphSize * d.toNat)

/-- The key an instruction tests: the low nibble of V[x] (R100). -/
def keyOf (v : Byte) : KeyIdx := (v.extractLsb' 0 4).toFin

/-- `keys[k]` of the cycle's snapshot (R100). -/
def State.keyHeld (s : State) (k : KeyIdx) : Bool := s.input.keys[k]

/-- `key_pick` (R6, R104): none while no key is held; else the key of the cycle's draw where that key is held, and the
lowest held key where it is not. The result is always a held key, and every held key is the result for some draw. -/
def State.pickKey (s : State) : Option KeyIdx :=
  if s.keyHeld s.input.keyDraw then some s.input.keyDraw
  else (List.finRange 16).find? fun k => s.keyHeld k

/-- The code of a key as a byte. -/
def keyByte (k : KeyIdx) : Byte := BitVec.ofNat 8 k.val

end Sys2Proof.Machine
end

