-- ==== Sys2Proof/Machine/Flags.lean ====
section
/-! DEFINITION. The flag VF (spec/10_state.md R17): the value each instruction that computes a flag writes, and the
order in which flag and result are written (42_arithmetic_logic.md R79). -/

namespace Sys2Proof.Machine

/-- A condition as a register value, 1 or 0 (R11, R17). -/
def flagByte (c : Bool) : Byte := if c then 1 else 0

/-- 8xy4: 1 when the sum exceeds 255 (R86). -/
def carryFlag (a b : Byte) : Byte := flagByte (a.toNat + b.toNat > 255)

/-- 8xy5 and 8xy7: 1 when the minuend is strictly greater than the subtrahend (R87, R89). -/
def greaterFlag (a b : Byte) : Byte := flagByte (a.toNat > b.toNat)

/-- 8xy6: the bit shifted out on the right (R88). -/
def lowBitFlag (a : Byte) : Byte := a &&& 1

/-- 8xyE: the bit shifted out on the left (R90). -/
def highBitFlag (a : Byte) : Byte := (a >>> 7) &&& 1

/-- The two statements of 8xy5, 8xy6, 8xy7 and 8xyE under ALU_VF_ORDER (R79). SEQUENTIAL: the flag is written first and
the result statement reads both operands again. RESULT_THEN_FLAG: both operands are read first, the result is written,
then the flag. -/
def State.writeFlagAndResult (s : State) (x y : RegIdx) (flag result : Byte → Byte → Byte) : State :=
  match s.params.aluVfOrder with
  | .sequential =>
    let t := s.setV VF (flag (s.getV x) (s.getV y))
    t.setV x (result (t.getV x) (t.getV y))
  | .resultThenFlag =>
    (s.setV x (result (s.getV x) (s.getV y))).setV VF (flag (s.getV x) (s.getV y))

/-- The two statements of 8xy4 under ALU_VF_ORDER: the sum is formed before either write, so only the order of the
writes differs (R79, R86). -/
def State.writeCarryAndSum (s : State) (x y : RegIdx) : State :=
  let a := s.getV x
  let b := s.getV y
  match s.params.aluVfOrder with
  | .sequential => (s.setV VF (carryFlag a b)).setV x (a + b)
  | .resultThenFlag => (s.setV x (a + b)).setV VF (carryFlag a b)

end Sys2Proof.Machine
end

