-- ==== Sys2Proof/Machine/Cycle.lean ====
section
/-! DEFINITION. The parts of a cycle around its instruction (spec/30_encoding.md R62, R63), the timer step
(60_exceptions.md R115), and the host's operations Reset and Load (70_reset_and_hazards.md R126 to R130). -/

namespace Sys2Proof.Machine

/-! ### The timer step (R115) -/

/-- A timer's decrement, clamped at 0 (R22, R23, R115). -/
def decrement (t : Byte) : Byte := if t > 0 then t - 1 else t

/-- A timer step is due: more than TICK_PERIOD = 1/60 s has passed since `last_tick`, or exactly TICK_PERIOD and the draw
says so (R115). The rational comparison is made in integers, which evaluate at once: with now = a/b and last_tick = c/d
it compares 60·(a·d − c·b) with b·d. The lemma `State.tickDue_iff` says it in R115's own words. -/
def State.tickDue (s : State) : Bool :=
  let now := s.input.now
  let last := s.lastTick
  let elapsed60 : Int := 60 * (now.num * last.den - last.num * now.den)
  let one : Int := now.den * last.den
  decide (one < elapsed60) || (decide (one = elapsed60) && s.input.tickAtBoundary)

/-- `TimerStep(now)`, with the cycle's `now` (R115). -/
def State.timerStep (s : State) : State :=
  if s.tickDue then { s with DT := decrement s.DT, ST := decrement s.ST, lastTick := s.input.now } else s

/-! ### The cycle (R62) -/

/-- The start of a cycle: the inputs are sampled and `changed` is 0 (R26, R30, R62). -/
def State.beginCycle (s : State) (input : CycleInput) : State :=
  { s with input := input, changed := false }

/-- Fetch and decode at pc, then the bounds-checked advance of pc by 2 (R37, R55, R62, R63). -/
def fetchAndAdvance (s : State) : Except Raise (Decoded × State) := do
  let w ← fetch16 s s.pc.toNat
  let t ← writePc s (s.pc.toNat + 2)
  return (decode s.params w, t)

/-- The end of a cycle: the timer step, unless the cycle faulted (R108, R115). -/
def State.endCycle (s : State) : State :=
  match s.status with
  | .faulted _ => s
  | .unloaded | .running => s.timerStep

/-- A Cycle outside the status Running has no step: no state changes, and the output `changed` is 0 (R130). -/
def State.noCycle (s : State) : State := { s with changed := false }

/-! ### Reset and Load (R126 to R130) -/

/-- `Reset(now0)` as an operation: a new session from nothing, whatever the old state was (R126). The parameters stay,
and so do the host's further operations. -/
def State.performReset (s : State) (now0 : Time) : State :=
  { State.resetAt s.params now0 with calls := s.calls }

/-- The bytes of a program image in memory, from `a` on (R127). -/
def State.placeBytes (s : State) (a : Nat) : List Byte → State
  | [] => s
  | b :: bs => (s.setByte a b).placeBytes (a + 1) bs

/-- `Load(bytes)` (R127, R128, R130). -/
def State.performLoad (s : State) (image : List Byte) : State :=
  match s.status with
  | .unloaded =>
    if image.length > Config.programMax then { s with lastLoad := some (.loadFailed .loadTooLarge) }
    else { s.placeBytes Config.programBase image with status := .running, lastLoad := some .loaded }
  | .running | .faulted _ => { s with lastLoad := some .loadRefused }

/-- The host could supply no bytes: the core sees no Load, and only the host's result is noted (R128). -/
def State.noteUnreadable (s : State) : State := { s with lastLoad := some (.loadFailed .loadUnreadable) }

/-- The state with a program counted as loaded (status Running), and with a Cycle of quiet inputs at the latest time as
the host's next operation (log entry 6). -/
def State.readyToRun (s : State) : State :=
  { s with status := .running, calls := .cycle (CycleInput.quiet s.input.now) :: s.calls }

end Sys2Proof.Machine
end

