-- ==== Sys2Proof/Machine/Arithmetic.lean ====
section
/-! DEFINITION. The register, arithmetic and logic instructions (spec/42_arithmetic_logic.md R79 to R92). None raises a
fault of its own. -/

namespace Sys2Proof.Machine

/-- LD_VB, 6xkk (R80). -/
def execLdVB (x : RegIdx) (kk : Byte) (s : State) : Host.Outcome State Fault Refusal :=
  complete s (.ok (s.setV x kk))

/-- ADD_VB, 7xkk (R81): modulo 256, no flag. -/
def execAddVB (x : RegIdx) (kk : Byte) (s : State) : Host.Outcome State Fault Refusal :=
  complete s (.ok (s.setV x (s.getV x + kk)))

/-- LD_VV, 8xy0 (R82). -/
def execLdVV (x y : RegIdx) (s : State) : Host.Outcome State Fault Refusal :=
  complete s (.ok (s.setV x (s.getV y)))

/-- OR, 8xy1 (R83): VF is not reset. -/
def execOrVV (x y : RegIdx) (s : State) : Host.Outcome State Fault Refusal :=
  complete s (.ok (s.setV x (s.getV x ||| s.getV y)))

/-- AND, 8xy2 (R84): VF is not reset. -/
def execAndVV (x y : RegIdx) (s : State) : Host.Outcome State Fault Refusal :=
  complete s (.ok (s.setV x (s.getV x &&& s.getV y)))

/-- XOR, 8xy3 (R85): VF is not reset. -/
def execXorVV (x y : RegIdx) (s : State) : Host.Outcome State Fault Refusal :=
  complete s (.ok (s.setV x (s.getV x ^^^ s.getV y)))

/-- ADD_VV, 8xy4 (R86). -/
def execAddVV (x y : RegIdx) (s : State) : Host.Outcome State Fault Refusal :=
  complete s (.ok (s.writeCarryAndSum x y))

/-- SUB, 8xy5 (R87). -/
def execSub (x y : RegIdx) (s : State) : Host.Outcome State Fault Refusal :=
  complete s (.ok (s.writeFlagAndResult x y (fun a b => greaterFlag a b) (fun a b => a - b)))

/-- SHR, 8xy6 (R88): V[y] is not read. -/
def execShr (x _y : RegIdx) (s : State) : Host.Outcome State Fault Refusal :=
  complete s (.ok (s.writeFlagAndResult x x (fun a _ => lowBitFlag a) (fun a _ => a >>> 1)))

/-- SUBN, 8xy7 (R89). -/
def execSubn (x y : RegIdx) (s : State) : Host.Outcome State Fault Refusal :=
  complete s (.ok (s.writeFlagAndResult x y (fun a b => greaterFlag b a) (fun a b => b - a)))

/-- SHL, 8xyE (R90): V[y] is not read. -/
def execShl (x _y : RegIdx) (s : State) : Host.Outcome State Fault Refusal :=
  complete s (.ok (s.writeFlagAndResult x x (fun a _ => highBitFlag a) (fun a _ => a <<< 1)))

/-- RND, Cxkk (R91): the cycle's random byte, masked. -/
def execRnd (x : RegIdx) (kk : Byte) (s : State) : Host.Outcome State Fault Refusal :=
  complete s (.ok (s.setV x (s.input.rnd &&& kk)))

end Sys2Proof.Machine
end

