-- ==== Sys2Proof/Machine/ControlFlow.lean ====
section
/-! DEFINITION. The control-flow instructions (spec/41_control_flow.md R68 to R78). They run after the cycle's advance:
pc is the instruction's address plus 2 (R20). -/

namespace Sys2Proof.Machine

/-- SYS, 0nnn (R69): a no-op; pc keeps the cycle's advance. -/
def execSys (_nnn : BitVec 12) (s : State) : Host.Outcome State Fault Refusal :=
  complete s (.ok s)

/-- RET, 00EE (R70). -/
def execRet (s : State) : Host.Outcome State Fault Refusal :=
  complete s do
    let (a, t) ← pop s
    return { t with pc := a }

/-- JP, 1nnn (R71). -/
def execJp (nnn : BitVec 12) (s : State) : Host.Outcome State Fault Refusal :=
  complete s (.ok { s with pc := zext16 nnn })

/-- CALL, 2nnn (R72): the pushed value is the address after this instruction. -/
def execCall (nnn : BitVec 12) (s : State) : Host.Outcome State Fault Refusal :=
  complete s do
    let t ← push s s.pc
    return { t with pc := zext16 nnn }

/-- SE_VB, 3xkk (R73). -/
def execSeVB (x : RegIdx) (kk : Byte) (s : State) : Host.Outcome State Fault Refusal :=
  complete s (skipIf s (s.getV x == kk))

/-- SNE_VB, 4xkk (R74). -/
def execSneVB (x : RegIdx) (kk : Byte) (s : State) : Host.Outcome State Fault Refusal :=
  complete s (skipIf s (s.getV x != kk))

/-- SE_VV, 5xy0 (R75). -/
def execSeVV (x y : RegIdx) (s : State) : Host.Outcome State Fault Refusal :=
  complete s (skipIf s (s.getV x == s.getV y))

/-- SNE_VV, 9xy0 (R76). -/
def execSneVV (x y : RegIdx) (s : State) : Host.Outcome State Fault Refusal :=
  complete s (skipIf s (s.getV x != s.getV y))

/-- JP_V0, Bnnn (R77): the target is not reduced modulo 0x1000. -/
def execJpV0 (nnn : BitVec 12) (s : State) : Host.Outcome State Fault Refusal :=
  complete s (writePc s (nnn.toNat + (s.getV 0).toNat))

end Sys2Proof.Machine
end

