-- ==== Sys2Proof/Machine/Display.lean ====
section
/-! DEFINITION. The display instructions, 00E0 and Dxyn (spec/40_display.md R64 to R67). -/

namespace Sys2Proof.Machine

/-- `fb[r][c]` (R25, R64). -/
def Framebuffer.pixel (fb : Framebuffer) (r : Fin 32) (c : Fin 64) : Bool := fb[r][c]

/-- `fb[r][c] <- b`. -/
def Framebuffer.setPixel (fb : Framebuffer) (r : Fin 32) (c : Fin 64) (b : Bool) : Framebuffer :=
  fb.set r (fb[r].set c b)

/-- Every pixel off. -/
def Framebuffer.clear : Framebuffer := Vector.replicate 32 (Vector.replicate 64 false)

/-- A row number modulo 32: rows wrap (R64). -/
def rowMod (r : Nat) : Fin 32 := ⟨r % 32, Nat.mod_lt r (by decide)⟩

/-- A column number modulo 64: columns wrap (R64). -/
def colMod (c : Nat) : Fin 64 := ⟨c % 64, Nat.mod_lt c (by decide)⟩

/-- The sprite pixel in column `j` of a sprite byte, the most significant bit leftmost (R64). -/
def spriteBit (b : Byte) (j : Nat) : Bool := b.getLsbD (7 - j)

/-- What the loop of R66 works on: the framebuffer and the instruction's two local bits. -/
structure Drawing where
  fb : Framebuffer
  collision : Bool
  flipped : Bool
  deriving DecidableEq, Repr

/-- The body of R66's loop: exclusive-or one sprite bit into one pixel, and note a collision and a flip. -/
def Drawing.plot (d : Drawing) (bit : Bool) (r : Fin 32) (c : Fin 64) : Drawing :=
  let old := d.fb.pixel r c
  { fb := d.fb.setPixel r c (old ^^ bit)
    collision := d.collision || (old && bit)
    flipped := d.flipped || bit }

/-- One sprite byte in row `cy` mod 32: its `k` last columns, `8 - k` to 7, each in column (cx + j) mod 64 (R64, R66). -/
def Drawing.row (d : Drawing) (b : Byte) (cx cy : Nat) : Nat → Drawing
  | 0 => d
  | k + 1 =>
    (d.plot (spriteBit b (7 - k)) (rowMod cy) (colMod (cx + (7 - k)))).row b cx cy k

/-- The sprite's rows from row `cy` down (R66). -/
def Drawing.rows (d : Drawing) (cx cy : Nat) : List Byte → Drawing
  | [] => d
  | b :: bs => (d.row b cx cy 8).rows cx (cy + 1) bs

/-- The drawing of a sprite at column `cx` and row `cy` of a framebuffer (R66). -/
def drawSprite (fb : Framebuffer) (cx cy : Nat) (bytes : List Byte) : Drawing :=
  Drawing.rows { fb := fb, collision := false, flipped := false } cx cy bytes

/-- CLS, 00E0 (R65): `changed` is 1 whatever the framebuffer was. -/
def execCls (s : State) : Host.Outcome State Fault Refusal :=
  complete s (.ok { s with fb := Framebuffer.clear, changed := true })

/-- DRW, Dxyn (R66): the coordinates and all sprite bytes are read before any write, and VF is written last. -/
def execDrw (x y : RegIdx) (n : BitVec 4) (s : State) : Host.Outcome State Fault Refusal :=
  complete s do
    let cx := (s.getV x).toNat
    let cy := (s.getV y).toNat
    let bytes ← readBytes s s.I.toNat n.toNat
    let d := drawSprite s.fb cx cy bytes
    return { s.setV VF (flagByte d.collision) with fb := d.fb, changed := s.changed || d.flipped }

end Sys2Proof.Machine
end

