-- ==== Sys2Proof/Machine/InputTimers.lean ====
section
/-! DEFINITION. The keyboard and timer instructions (spec/44_input_timers.md R100 to R106). -/

namespace Sys2Proof.Machine

/-- SKP, Ex9E (R101). -/
def execSkp (x : RegIdx) (s : State) : Host.Outcome State Fault Refusal :=
  complete s (skipIf s (s.keyHeld (keyOf (s.getV x))))

/-- SKNP, ExA1 (R102). -/
def execSknp (x : RegIdx) (s : State) : Host.Outcome State Fault Refusal :=
  complete s (skipIf s (!s.keyHeld (keyOf (s.getV x))))

/-- LD_V_DT, Fx07 (R103): DT as the previous cycle left it, since the timer step comes after. -/
def execLdVDT (x : RegIdx) (s : State) : Host.Outcome State Fault Refusal :=
  complete s (.ok (s.setV x s.DT))

/-- LD_V_K, Fx0A (R104): while no key is held, pc goes back to this instruction. -/
def execLdVK (x : RegIdx) (s : State) : Host.Outcome State Fault Refusal :=
  complete s
    (match s.pickKey with
    | none => .ok { s with pc := s.pc - 2 }
    | some k => .ok (s.setV x (keyByte k)))

/-- LD_DT_V, Fx15 (R105): the timer period restarts. -/
def execLdDTV (x : RegIdx) (s : State) : Host.Outcome State Fault Refusal :=
  complete s (.ok { s with DT := s.getV x, lastTick := s.input.now })

/-- LD_ST_V, Fx18 (R106): the timer period does not restart. -/
def execLdSTV (x : RegIdx) (s : State) : Host.Outcome State Fault Refusal :=
  complete s (.ok { s with ST := s.getV x })

end Sys2Proof.Machine
end

