-- ==== Sys2Proof/Machine/MemoryIndex.lean ====
section
/-! DEFINITION. The index-register and memory instructions (spec/43_memory_index.md R93 to R99). An instruction checks
its addresses before it writes anything, and I is no side effect of an access (R93). -/

namespace Sys2Proof.Machine

/-- LD_I, Annn (R94). -/
def execLdI (nnn : BitVec 12) (s : State) : Host.Outcome State Fault Refusal :=
  complete s (.ok { s with I := zext16 nnn })

/-- ADD_I_V, Fx1E (R95): VF is untouched. -/
def execAddIV (x : RegIdx) (s : State) : Host.Outcome State Fault Refusal :=
  complete s (writeI s (s.I.toNat + (s.getV x).toNat))

/-- LD_F_V, Fx29 (R96). -/
def execLdFV (x : RegIdx) (s : State) : Host.Outcome State Fault Refusal :=
  complete s (.ok { s with I := glyphAddr s.params (s.getV x) })

/-- LD_B_V, Fx33 (R97). -/
def execLdBV (x : RegIdx) (s : State) : Host.Outcome State Fault Refusal :=
  complete s do
    checkLast (s.I.toNat + 2)
    writeBytes s s.I.toNat (decimalDigits (s.getV x))

/-- LD_MEM_V, Fx55 (R98). -/
def execLdMemV (x : RegIdx) (s : State) : Host.Outcome State Fault Refusal :=
  complete s do
    checkLast (s.I.toNat + x.val)
    writeBytes s s.I.toNat (s.regsUpTo x)

/-- LD_V_MEM, Fx65 (R99). -/
def execLdVMem (x : RegIdx) (s : State) : Host.Outcome State Fault Refusal :=
  complete s do
    checkLast (s.I.toNat + x.val)
    let bytes ← readBytes s s.I.toNat (x.val + 1)
    return s.loadRegs 0 bytes

end Sys2Proof.Machine
end

