-- ==== Sys2Proof/Machine/Execute.lean ====
section
/-! DEFINITION. The cycle (spec/30_encoding.md R62) and the performance of the host's operations (10_state.md R31,
70_reset_and_hazards.md R126 to R130). -/

namespace Sys2Proof.Machine

/-- What follows the fetch and the advance in a cycle (R62): the instruction, or nothing for UNKNOWN (R56), and then the
timer step, unless the instruction faulted. -/
def execute (d : Decoded) (s : State) : Host.Outcome State Fault Refusal :=
  match d with
  | .reject _ => .next s.endCycle
  | .accept i =>
    match exec i s with
    | .next t => .next t.endCycle
    | .fault f => .fault f
    | .refused r => .refused r

/-- `Cycle(keys, now, rnd)` (R62): it has a step only when the status is Running (R130), and the model has no move for a
clock that runs backward (R125). A fault of the fetch or of the advance is taken before the instruction runs (R109). -/
def cycle (input : CycleInput) (s : State) : Host.Outcome State Fault Refusal :=
  match s.status with
  | .unloaded | .faulted _ => .next s.noCycle
  | .running =>
    if input.now < s.input.now then .refused .clockRanBackward
    else
      let s0 := s.beginCycle input
      match fetchAndAdvance s0 with
      | .error r => .next (s0.takeFault s0.pc r)
      | .ok (d, t) => execute d t

/-- The host's operation `call`, performed to completion (R31). -/
def perform (call : HostCall) (s : State) : Host.Outcome State Fault Refusal :=
  match call with
  | .reset now0 => .next (s.performReset now0)
  | .load image => .next (s.performLoad image)
  | .loadUnreadable => .next s.noteUnreadable
  | .cycle input => cycle input s

/-- With no operation of the host left, the machine stays as it is: it does nothing of its own (R7). -/
def idle (s : State) : Host.Outcome State Fault Refusal := .next s

end Sys2Proof.Machine
end

