-- ==== Sys2Proof/Machine/Step.lean ====
section
/-! DEFINITION. One step of the machine: it performs the host's next operation (spec/10_state.md R31). -/

namespace Sys2Proof.Machine

/-- One step: the host's next operation is performed to completion (R7, R31); with none left the machine idles. -/
def step (s : State) : Host.Outcome State Fault Refusal :=
  match s.calls with
  | [] => idle s
  | call :: rest => perform call { s with calls := rest }

/-- The instruction word of a row of spec/opcode_table.json stored where the next step fetches, high byte first (R37):
the program counts as loaded, and the host's next operation is a Cycle (log entry 6). -/
def State.withFetchWord (s : State) (nbits w : Nat) : State :=
  (s.placeBytes s.pc.toNat (bytesOfWord (tableWord nbits w))).readyToRun

end Sys2Proof.Machine
end

