-- ==== Sys2Proof/Safety.lean ====
section
/-! DEFINITION. What claims are stated in: the invariant of spec/10_state.md R33, the ends of a run of
70_reset_and_hazards.md R136, and the frames of the instructions. -/

namespace Sys2Proof.Machine

/-! ### The invariant -/

/-- The invariant of R33. The ranges of V, DT, ST, sp and the pixels are those of their types; `last_tick` is at most the
latest `now` supplied. The first clause, that memory is in its canonical form, is the model's own (log entry 7). -/
structure State.Inv (s : State) : Prop where
  mem_wf : Memory.wf s.params.font s.mem
  pc_le : s.pc.toNat ≤ 0xFFF
  I_le : s.I.toNat ≤ 0xFFF
  stack_le : ∀ k : Fin 16, s.stack[k].toNat ≤ 0xFFF
  lastTick_le : s.lastTick ≤ s.input.now

/-! ### Runs (R136) -/

/-- The run faults here (R136). -/
def State.isFaulted (s : State) : Prop := ∃ r, s.status = .faulted r

/-- The word at pc is `w`: the bytes at pc and pc + 1, both in memory, high byte first (R37). -/
def State.wordAtPc (s : State) (w : Word) : Prop := fetch16 s s.pc.toNat = .ok w

/-- The run stops here at a self-jump (R136): the status is Running and the word at pc is 1nnn with nnn = pc. -/
def State.atSelfJump (s : State) : Prop :=
  s.status = .running ∧ ∃ nnn : BitVec 12, s.wordAtPc (encode (.jp nnn)) ∧ s.pc.toNat = nnn.toNat

/-- The run waits here (R136): the word at pc is Fx0A. -/
def State.atKeyWait (s : State) : Prop := ∃ x : RegIdx, s.wordAtPc (encode (.ldVK x))

/-- A run of `n` steps is safe from `s`: it reaches a state, and that state is not Faulted (R136). -/
def SafeRun (s : State) (n : Nat) : Prop :=
  ∃ t : State, Sys2Proof.core.run n s = .next t ∧ ¬ t.isFaulted

/-- The next operation of the host is a Cycle with `input`, and it has a step: the status is Running, and the host's
clock has not run backward (R125, R130). -/
def State.runsCycle (s : State) (input : CycleInput) (rest : List HostCall) : Prop :=
  s.status = .running ∧ s.calls = .cycle input :: rest ∧ s.input.now ≤ input.now

/-- The state in which the instruction fetched from `s` executes (R62): the inputs are sampled, `changed` is 0, and pc is
two past the instruction. -/
def State.executing (s : State) (input : CycleInput) (rest : List HostCall) : State :=
  { s with input := input, changed := false, calls := rest, pc := s.pc + 2 }

/-- The word of the two bytes at pc. -/
def State.bytesAtPc (s : State) : Word := wordOfBytes (s.byteAt s.pc.toNat) (s.byteAt (s.pc.toNat + 1))

/-- What the decoder makes of the two bytes at pc. -/
def State.decodedAtPc (s : State) : Decoded := decode s.params s.bytesAtPc

/-! ### Encodings and frames -/

/-- The word with the number `w` decodes to the instruction, whatever the parameters are. -/
def DecodesTo (w : Nat) (i : Instr) : Prop := ∀ p, decode p (BitVec.ofNat 16 w) = .accept i

/-- The words that R58 names, whose decoding depends on a parameter: 0xE0 and 0xEE with x ≠ 0, and 5xyN and 9xyN with
N ≠ 0. -/
def ReadsDecoderParams (w : Word) : Prop :=
  (w.toNat / 4096 = 0x0 ∧ w.toNat / 256 ≠ 0 ∧ (w.toNat % 256 = 0xE0 ∨ w.toNat % 256 = 0xEE)) ∨
  ((w.toNat / 4096 = 0x5 ∨ w.toNat / 4096 = 0x9) ∧ w.toNat % 16 ≠ 0)

/-- The state with other values of the two parameters of R58, DECODE_OP0_IGNORE_X and DECODE_5_9_IGNORE_N. -/
abbrev State.withDecoderParams (s : State) (ignoreX ignoreN : Bool) : State :=
  { s with params := { s.params with decodeOp0IgnoreX := ignoreX, decode59IgnoreN := ignoreN } }

/-- Every byte of memory reads as before. -/
def KeepsBytes (s t : State) : Prop := ∀ a, t.byteAt a = s.byteAt a

/-- At most the general registers differ. -/
def OnlyV (s t : State) : Prop := t = { s with V := t.V } ∧ KeepsBytes s t

/-- At most pc differs. -/
def OnlyPc (s t : State) : Prop := t = { s with pc := t.pc } ∧ KeepsBytes s t

/-- At most I differs. -/
def OnlyI (s t : State) : Prop := t = { s with I := t.I } ∧ KeepsBytes s t

/-- Every register but `x` is as before. -/
def KeepsVExcept (x : RegIdx) (s t : State) : Prop := ∀ k, k ≠ x → t.getV k = s.getV k

/-- Only `x` of the registers, and nothing else at all, may differ, and `x` holds the number `b`. -/
def WritesV (s t : State) (x : RegIdx) (b : Nat) : Prop :=
  (t.getV x).toNat = b ∧ KeepsVExcept x s t ∧ OnlyV s t

/-- The executing instruction took a fault (R108): from `s`, in which pc is two past it, only pc (back at the
instruction), `changed` and the status differ. -/
def FaultTaken (s t : State) (kind : FaultKind) (value : Nat) : Prop :=
  t = { s with
    pc := s.pc - 2
    changed := false
    status := .faulted { kind := kind, faultPc := s.pc - 2, faultValue := value } } ∧ KeepsBytes s t

/-- What a conditional skip does (R68): with the condition, pc moves past the next instruction, or PcOutOfRange is taken
where that leaves memory; without it nothing changes. -/
def SkipsWhen (c : Prop) (s t : State) : Prop :=
  (¬ c → t = s) ∧
  (c → s.pc.toNat + 2 ≤ 0xFFF → t.pc.toNat = s.pc.toNat + 2 ∧ OnlyPc s t) ∧
  (c → 0xFFF < s.pc.toNat + 2 → FaultTaken s t .pcOutOfRange (s.pc.toNat + 2))

/-- The byte at `I + i` has the sprite pixel of column `j`, and it lands on pixel (r, c) (R64). -/
def SpritePixel (s : State) (cx cy : Nat) (i j : Nat) (r : Fin 32) (c : Fin 64) : Prop :=
  j < 8 ∧ (s.byteAt (s.I.toNat + i)).getLsbD (7 - j) = true ∧ r.val = (cy + i) % 32 ∧ c.val = (cx + j) % 64

/-- Some pixel of the `n` sprite bytes at I lands on pixel (r, c). -/
def SpriteOn (s : State) (cx cy n : Nat) (r : Fin 32) (c : Fin 64) : Prop :=
  ∃ i j, i < n ∧ SpritePixel s cx cy i j r c

/-- The general registers an instruction may write (R18). -/
def MayWriteV : Instr → RegIdx → Prop
  | .ldVB x _, k | .addVB x _, k | .ldVV x _, k | .orVV x _, k | .andVV x _, k | .xorVV x _, k | .rnd x _, k
  | .ldVDT x, k | .ldVK x, k => k = x
  | .addVV x _, k | .sub x _, k | .subn x _, k | .shr x _, k | .shl x _, k => k = x ∨ k = VF
  | .drw _ _ _, k => k = VF
  | .ldVMem x, k => k ≤ x
  | .cls, _ | .ret, _ | .sys _, _ | .jp _, _ | .call _, _ | .seVB _ _, _ | .sneVB _ _, _ | .seVV _ _, _
  | .sneVV _ _, _ | .ldI _, _ | .jpV0 _, _ | .skp _, _ | .sknp _, _ | .ldDTV _, _ | .ldSTV _, _ | .addIV _, _
  | .ldFV _, _ | .ldBV _, _ | .ldMemV _, _ => False

/-- The six skip instructions (R68). -/
def IsSkip : Instr → Prop
  | .seVB _ _ | .sneVB _ _ | .seVV _ _ | .sneVV _ _ | .skp _ | .sknp _ => True
  | .cls | .ret | .sys _ | .jp _ | .call _ | .ldVB _ _ | .addVB _ _ | .ldVV _ _ | .orVV _ _ | .andVV _ _ | .xorVV _ _
  | .addVV _ _ | .sub _ _ | .shr _ _ | .subn _ _ | .shl _ _ | .ldI _ | .jpV0 _ | .rnd _ _ | .drw _ _ _ | .ldVDT _
  | .ldVK _ | .ldDTV _ | .ldSTV _ | .addIV _ | .ldFV _ | .ldBV _ | .ldMemV _ | .ldVMem _ => False

end Sys2Proof.Machine
end

