-- ==== Sys2Proof/Certificates/Slice0/Obligations.lean ====
section
/-! DEFINITION. The statements for the provers, in the order of the spec's files. `exec i s` runs the instruction `i` in a
state `s` whose pc is already two past it (R20). -/

open Sys2Proof Sys2Proof.Machine

/-! ### Reset, load and the host's operations (10_state.md, 70_reset_and_hazards.md) -/

/-- R32, R126: what a Reset constructs, for every FONT and every `now0`, from whatever state. That the parameters are a
field of State and that a Reset keeps them and the host's further operations is the model's choice (log entries 1
and 15). -/
def Obligations.ResetGivesTheTableOfR32 : Prop :=
  ∀ (s : State) (now0 : Time) (rest : List HostCall), s.calls = .reset now0 :: rest →
    ∃ t, step s = .next t ∧
      (∀ k : Fin 80, t.byteAt (0x050 + k.val) = s.params.font[k]) ∧
      (∀ a, a < 0x050 ∨ 0x0A0 ≤ a → t.byteAt a = 0) ∧
      (∀ k, t.getV k = 0) ∧ t.I = 0 ∧ t.pc = 0x200 ∧ t.sp = 0 ∧ (∀ k : Fin 16, t.stack[k] = 0) ∧
      t.DT = 0 ∧ t.ST = 0 ∧ t.lastTick = now0 ∧ (∀ r c, Framebuffer.pixel t.fb r c = false) ∧
      t.status = .unloaded ∧ t.params = s.params ∧ t.calls = rest

/-- The invariant of R33 holds right after reset, for every parameter value and `now0`; `State.reset` is the one with
`now0` = 0 (log entry 5). -/
def Obligations.ResetMeetsTheInvariant : Prop :=
  State.reset.Inv ∧ ∀ (p : Params) (now0 : Time), (State.resetAt p now0).Inv

/-- Every step, whatever the host does, keeps the invariant of R33 (its clause on the form of memory is log entry 7). -/
def Obligations.EveryStepKeepsTheInvariant : Prop :=
  ∀ s t : State, s.Inv → step s = .next t → t.Inv

/-- R33, over every session: after reset with any parameters at any time, through any operations of the host. The clauses
on sp, V, DT, ST and the pixels hold by the types of those fields; the others need every step to keep them
(`Obligations.EveryStepKeepsTheInvariant`). -/
def Obligations.ReachableStatesStayInRange : Prop :=
  ∀ (p : Params) (now0 : Time) (calls : List HostCall) (n : Nat) (t : State),
    Sys2Proof.core.run n ({ State.resetAt p now0 with calls := calls } : State) = .next t →
      t.pc.toNat ≤ 0xFFF ∧ t.I.toNat ≤ 0xFFF ∧ t.sp.val ≤ 16 ∧ (∀ k : Fin 16, t.stack[k].toNat ≤ 0xFFF) ∧
      (∀ k, (t.getV k).toNat ≤ 255) ∧ t.DT.toNat ≤ 255 ∧ t.ST.toNat ≤ 255 ∧
      (∀ r c, Framebuffer.pixel t.fb r c = true ∨ Framebuffer.pixel t.fb r c = false) ∧ t.lastTick ≤ t.input.now

/-- R127: a Load of at most 3584 bytes into an Unloaded core copies the image to 0x200 and sets Running; a longer image
fails, and outside Unloaded the Load is refused. Nothing else changes, but for the result the host is given. -/
def Obligations.LoadCopiesTheImage : Prop :=
  ∀ (s : State) (image : List Byte) (rest : List HostCall), s.calls = .load image :: rest →
    (s.status = .unloaded → image.length ≤ 3584 →
      ∃ t, step s = .next t ∧ t.status = .running ∧
        (∀ k (h : k < image.length), t.byteAt (0x200 + k) = image[k]) ∧
        (∀ a, a < 0x200 ∨ 0x200 + image.length ≤ a → t.byteAt a = s.byteAt a) ∧
        t = { s with mem := t.mem, status := .running, lastLoad := some .loaded, calls := rest }) ∧
    (s.status = .unloaded → 3584 < image.length →
      step s = .next { s with lastLoad := some (.loadFailed .loadTooLarge), calls := rest }) ∧
    (s.status ≠ .unloaded → step s = .next { s with lastLoad := some .loadRefused, calls := rest })

/-- R128: the codes of the two load errors; an image over 3584 bytes, and one the host cannot read, change nothing but
the result the host is given. -/
def Obligations.LoadErrorsCopyNothing : Prop :=
  LoadError.code .loadUnreadable = 16 ∧ LoadError.code .loadTooLarge = 17 ∧
  (∀ (s : State) (image : List Byte) (rest : List HostCall),
    s.calls = .load image :: rest → s.status = .unloaded → 3584 < image.length →
    step s = .next { s with lastLoad := some (.loadFailed .loadTooLarge), calls := rest }) ∧
  (∀ (s : State) (rest : List HostCall), s.calls = .loadUnreadable :: rest →
    step s = .next { s with lastLoad := some (.loadFailed .loadUnreadable), calls := rest })

/-- R130: a Cycle outside Running changes no state and reports `changed` = 0; a Load outside Unloaded has no effect but
the result the host is given; a Reset constructs a new session from any state. The model's own are: that such a Cycle leaves its
inputs unsampled (log entry 16), and what a Reset does with the parameters, the host's further operations, `changed`, the
last Load's result and the inputs (log entries 15 and 4). -/
def Obligations.OutOfOrderOperations : Prop :=
  (∀ (s : State) (input : CycleInput) (rest : List HostCall),
    s.calls = .cycle input :: rest → s.status ≠ .running →
    step s = .next { s with changed := false, calls := rest }) ∧
  (∀ (s : State) (image : List Byte) (rest : List HostCall),
    s.calls = .load image :: rest → s.status ≠ .unloaded →
    step s = .next { s with lastLoad := some .loadRefused, calls := rest }) ∧
  (∀ (s : State) (now0 : Time) (rest : List HostCall), s.calls = .reset now0 :: rest →
    step s = .next { State.resetAt s.params now0 with calls := rest })

/-- The machine always has a next state but in one case, the model's refusal of a clock that runs backward
(log entry 8). -/
def Obligations.OnlyABackwardClockIsRefused : Prop :=
  ∀ s : State, (∃ t, step s = .next t) ∨
    (step s = .refused .clockRanBackward ∧
      ∃ input rest, s.calls = .cycle input :: rest ∧ s.status = .running ∧ input.now < s.input.now)

/-- The parameters of R6 are fixed: no step changes them, and no instruction touches the host's side. -/
def Obligations.ParametersAreFixed : Prop :=
  (∀ s t : State, step s = .next t → t.params = s.params) ∧
  (∀ (i : Instr) (s t : State), exec i s = .next t →
    t.params = s.params ∧ t.input = s.input ∧ t.calls = s.calls ∧ t.lastLoad = s.lastLoad)

/-! ### State (10_state.md) -/

/-- R18, R19, R25, R26, R39: what an instruction may change besides the general registers and pc, and at which addresses
and in which entry of the stack; `changed` and the status also change where a fault is taken. -/
def Obligations.InstructionsWriteOnlyTheirState : Prop :=
  ∀ (i : Instr) (s t : State), exec i s = .next t →
    (t.fb ≠ s.fb → i = .cls ∨ ∃ x y n, i = .drw x y n) ∧
    (t.changed ≠ s.changed → i = .cls ∨ (∃ x y n, i = .drw x y n) ∨ t.isFaulted) ∧
    (t.I ≠ s.I → (∃ nnn, i = .ldI nnn) ∨ (∃ x, i = .addIV x) ∨ ∃ x, i = .ldFV x) ∧
    (∀ k : Fin 16, t.stack[k] ≠ s.stack[k] → (∃ nnn, i = .call nnn) ∧ k.val = s.sp.val) ∧
    (t.sp ≠ s.sp → i = .ret ∨ ∃ nnn, i = .call nnn) ∧
    (t.DT ≠ s.DT → ∃ x, i = .ldDTV x) ∧
    (t.lastTick ≠ s.lastTick → ∃ x, i = .ldDTV x) ∧
    (t.ST ≠ s.ST → ∃ x, i = .ldSTV x) ∧
    (∀ a, t.byteAt a ≠ s.byteAt a →
      (∃ x, i = .ldBV x ∧ s.I.toNat ≤ a ∧ a ≤ s.I.toNat + 2) ∨
      ∃ x : RegIdx, i = .ldMemV x ∧ s.I.toNat ≤ a ∧ a ≤ s.I.toNat + x.val) ∧
    (t.status ≠ s.status → t.isFaulted)

/-- R17, R18: the general registers an instruction may change; VF in particular changes only as the flag of 8xy4 to 8xyE
and Dxyn, as the Vx of an instruction that writes Vx, or under FF65. -/
def Obligations.InstructionsWriteOnlyTheirRegisters : Prop :=
  ∀ (i : Instr) (s t : State) (k : RegIdx), exec i s = .next t → t.getV k ≠ s.getV k → MayWriteV i k

/-- R21: the two stack operations, with their faults. -/
def Obligations.PushAndPop : Prop :=
  (∀ (s : State) (a : Word), s.sp.val < 16 →
    ∃ t, push s a = .ok t ∧ t.sp.val = s.sp.val + 1 ∧
      (∀ k : Fin 16, t.stack[k] = if k.val = s.sp.val then a else s.stack[k]) ∧
      t = { s with stack := t.stack, sp := t.sp }) ∧
  (∀ (s : State) (a : Word), s.sp.val = 16 → push s a = .error ⟨.stackOverflow, 16⟩) ∧
  (∀ (s : State) (k : Fin 16), s.sp.val = k.val + 1 →
    ∃ t, pop s = .ok (s.stack[k], t) ∧ t.sp.val = k.val ∧ t = { s with sp := t.sp }) ∧
  (∀ s : State, s.sp.val = 0 → pop s = .error ⟨.stackUnderflow, 0⟩)

/-- No step reads ST (R23): a state with another ST takes the same step, but for ST. -/
def Obligations.SoundTimerIsNeverRead : Prop :=
  ∀ (s t : State) (b : Byte), step s = .next t → ∃ b', step { s with ST := b } = .next { t with ST := b' }

/-! ### Memory (20_memory.md) -/

/-- R35, R36, R37: the memory primitives, as numbers. -/
def Obligations.MemoryPrimitives : Prop :=
  (∀ (s : State) (a : Nat), a ≤ 0xFFF → memRead s a = .ok (s.byteAt a)) ∧
  (∀ (s : State) (a : Nat), 0xFFF < a → memRead s a = .error ⟨.memoryOutOfRange, a⟩) ∧
  (∀ (s : State) (a : Nat) (v : Byte), a ≤ 0xFFF →
    ∃ t, memWrite s a v = .ok t ∧ (∀ b, t.byteAt b = if b = a then v else s.byteAt b) ∧ t = { s with mem := t.mem }) ∧
  (∀ (s : State) (a : Nat) (v : Byte), 0xFFF < a → memWrite s a v = .error ⟨.memoryOutOfRange, a⟩) ∧
  (∀ (s : State) (a : Nat), a < 0xFFF →
    ∃ w, fetch16 s a = .ok w ∧ w.toNat = (s.byteAt a).toNat * 256 + (s.byteAt (a + 1)).toNat) ∧
  (∀ s : State, fetch16 s 0xFFF = .error ⟨.memoryOutOfRange, 0x1000⟩)

/-- R49: bytes that Fx55 stored are what the next fetch from there reads, the first of the two as the high byte. -/
def Obligations.StoredBytesAreFetched : Prop :=
  ∀ (s t : State) (x k : RegIdx) (hk : k.val + 1 ≤ x.val), s.I.toNat + x.val ≤ 0xFFF → exec (.ldMemV x) s = .next t →
    ∃ w, fetch16 t (s.I.toNat + k.val) = .ok w ∧
      w.toNat = (s.getV k).toNat * 256 + (s.getV ⟨k.val + 1, lt_of_le_of_lt hk x.isLt⟩).toNat

/-- Memories in canonical form that read alike at every address are equal (the model's own form of memory, log
entry 7). -/
def Obligations.CanonicalMemoriesAreEqual : Prop :=
  ∀ (font : Vector Byte 80) (m₁ m₂ : Memory), Memory.wf font m₁ → Memory.wf font m₂ →
    (∀ a, Memory.read font m₁ a = Memory.read font m₂ a) → m₁ = m₂

/-! ### Encoding and the cycle (30_encoding.md) -/

/-- Decoding an encoded well-formed instruction gives it back, with every operand at every value, under all parameter
values, as a word and as bytes with anything after them. -/
def Obligations.DecodeOfEncodeIsTheInstruction : Prop :=
  ∀ (p : Params) (i : Instr), WellFormed p i = true →
    decode p (encode i) = .accept i ∧ ∀ rest, decodeBytes p (encodeBytes i ++ rest) = (.accept i, rest)

/-- What the decoder accepts is well-formed; the encoder gives the word back, but for the words that a parameter of R58
adds to CLS, RET, SE_VV and SNE_VV, and each of those is added. So under the spec's decoder parameters no two words are one
instruction: that is the model's choice, since SHR and SHL keep the y that R55 drops (log entry 13). -/
def Obligations.EncodeOfDecodeIsTheWord : Prop :=
  (∀ (p : Params) (w : Word) (i : Instr), decode p w = .accept i →
    WellFormed p i = true ∧
    (p.decodeOp0IgnoreX = false → p.decode59IgnoreN = false → encode i = w) ∧
    (encode i ≠ w →
      (p.decodeOp0IgnoreX = true ∧ w.toNat / 4096 = 0x0 ∧
        ((i = .cls ∧ w.toNat % 256 = 0xE0) ∨ (i = .ret ∧ w.toNat % 256 = 0xEE))) ∨
      (p.decode59IgnoreN = true ∧ ∃ x y : RegIdx, x.val = w.toNat / 256 % 16 ∧ y.val = w.toNat / 16 % 16 ∧
        ((i = .seVV x y ∧ w.toNat / 4096 = 0x5) ∨ (i = .sneVV x y ∧ w.toNat / 4096 = 0x9))))) ∧
  (∀ (p : Params) (x : RegIdx), p.decodeOp0IgnoreX = true →
    decode p (BitVec.ofNat 16 (0x100 * x.val + 0xE0)) = .accept .cls ∧
    decode p (BitVec.ofNat 16 (0x100 * x.val + 0xEE)) = .accept .ret) ∧
  (∀ (p : Params) (x y : RegIdx) (n : BitVec 4), p.decode59IgnoreN = true →
    decode p (BitVec.ofNat 16 (0x5000 + 0x100 * x.val + 0x10 * y.val + n.toNat)) = .accept (.seVV x y) ∧
    decode p (BitVec.ofNat 16 (0x9000 + 0x100 * x.val + 0x10 * y.val + n.toNat)) = .accept (.sneVV x y))

/-- Words of every format, written out from the patterns of R54, and what they decode to under the spec's parameter
values (the vectors of 95_test_vectors.md 2.1). -/
def Obligations.WordsOfTheTable : Prop :=
  decode Params.spec 0x00E0 = .accept .cls ∧ decode Params.spec 0x00EE = .accept .ret ∧
  decode Params.spec 0x01E0 = .accept (.sys 0x1E0) ∧ decode Params.spec 0x2ABC = .accept (.call 0xABC) ∧
  decode Params.spec 0x3A12 = .accept (.seVB 0xA 0x12) ∧ decode Params.spec 0x8AB6 = .accept (.shr 0xA 0xB) ∧
  decode Params.spec 0x9AB0 = .accept (.sneVV 0xA 0xB) ∧ decode Params.spec 0xD000 = .accept (.drw 0 0 0) ∧
  decode Params.spec 0xE1A1 = .accept (.sknp 1) ∧ decode Params.spec 0xF10A = .accept (.ldVK 1)

/-- R56: exactly these words are UNKNOWN, the first two classes only where 5xyN and 9xyN do not skip for every N (R58), as
under the spec's parameter values; and an UNKNOWN word is a no-op: pc advances by 2 and the timer step runs. -/
def Obligations.UnknownWordsAreNoOps : Prop :=
  Params.spec.decode59IgnoreN = false ∧
  (∀ (p : Params) (w : Word), (∃ why, decode p w = .reject why) ↔
    ((w.toNat / 4096 = 0x5 ∨ w.toNat / 4096 = 0x9) ∧ w.toNat % 16 ≠ 0 ∧ p.decode59IgnoreN = false) ∨
    (w.toNat / 4096 = 0x8 ∧ w.toNat % 16 ∈ [0x8, 0x9, 0xA, 0xB, 0xC, 0xD, 0xF]) ∨
    (w.toNat / 4096 = 0xE ∧ w.toNat % 256 ∉ [0x9E, 0xA1]) ∨
    (w.toNat / 4096 = 0xF ∧ w.toNat % 256 ∉ [0x07, 0x0A, 0x15, 0x18, 0x1E, 0x29, 0x33, 0x55, 0x65])) ∧
  (∀ (s : State) (input : CycleInput) (rest : List HostCall) (why : Reject),
    s.runsCycle input rest → s.pc.toNat ≤ 0xFFD → s.decodedAtPc = .reject why →
    step s = .next (s.executing input rest).timerStep)

/-- R62: where the bytes at pc are those of a well-formed instruction, that instruction completes in a next state from the
state with the inputs sampled, `changed` 0 and pc two further, and a Cycle is that and then the timer step, unless the
instruction faulted. -/
def Obligations.StepRunsTheDecodedInstruction : Prop :=
  ∀ (s : State) (input : CycleInput) (rest : List HostCall) (i : Instr),
    s.runsCycle input rest → s.pc.toNat ≤ 0xFFD → WellFormed s.params i = true →
    [s.byteAt s.pc.toNat, s.byteAt (s.pc.toNat + 1)] = encodeBytes i →
    ∃ t, exec i (s.executing input rest) = .next t ∧
      (t.isFaulted → step s = .next t) ∧ (¬ t.isFaulted → step s = .next t.timerStep)

/-- R63, R109: at 0xFFE the advance raises whatever the word there is, before the instruction runs; at 0xFFF the fetch
raises. Nothing but the status and the outputs changes. -/
def Obligations.FetchAndAdvanceFaults : Prop :=
  ∀ (s : State) (input : CycleInput) (rest : List HostCall), s.runsCycle input rest →
    (s.pc = 0xFFE → step s = .next { s with
      input := input, calls := rest, changed := false,
      status := .faulted { kind := .pcOutOfRange, faultPc := 0xFFE, faultValue := 0x1000 } }) ∧
    (s.pc = 0xFFF → step s = .next { s with
      input := input, calls := rest, changed := false,
      status := .faulted { kind := .memoryOutOfRange, faultPc := 0xFFF, faultValue := 0x1000 } })

/-! ### Display (40_display.md) -/

/-- R65: CLS. Its word is 00E0 alone, but that DECODE_OP0_IGNORE_X = true adds the words 0xE0 (R58). -/
def Obligations.ClsClearsTheScreen : Prop :=
  DecodesTo 0x00E0 .cls ∧ (∀ w, decode Params.spec w = .accept .cls → w = 0x00E0) ∧
  (∀ (p : Params) (w : Word), decode p w = .accept .cls ↔
    w = 0x00E0 ∨ (p.decodeOp0IgnoreX = true ∧ w.toNat / 4096 = 0x0 ∧ w.toNat % 256 = 0xE0)) ∧
  ∀ s : State, ∃ t, exec .cls s = .next t ∧ (∀ r c, Framebuffer.pixel t.fb r c = false) ∧ t.changed = true ∧
    t = { s with fb := t.fb, changed := t.changed } ∧ KeepsBytes s t

/-- R64, R66: DRW flips exactly the pixels its sprite bits land on, on the torus; VF is the collision, `changed` says
whether a pixel flipped; it faults, with nothing written, where a sprite byte lies past 0xFFF. -/
def Obligations.DrwDrawsByExclusiveOr : Prop :=
  (∀ (x y : RegIdx) (n : BitVec 4), DecodesTo (0xD000 + 0x100 * x.val + 0x10 * y.val + n.toNat) (.drw x y n)) ∧
  ∀ (x y : RegIdx) (n : BitVec 4) (s : State),
    (n.toNat = 0 ∨ s.I.toNat + n.toNat ≤ 0x1000 →
      ∃ t, exec (.drw x y n) s = .next t ∧
        (∀ r c, Framebuffer.pixel t.fb r c = true ↔
          Xor (Framebuffer.pixel s.fb r c = true)
            (SpriteOn s (s.getV x).toNat (s.getV y).toNat n.toNat r c)) ∧
        ((t.getV VF).toNat = 1 ∨ (t.getV VF).toNat = 0) ∧
        ((t.getV VF).toNat = 1 ↔ ∃ r c, Framebuffer.pixel s.fb r c = true ∧
          SpriteOn s (s.getV x).toNat (s.getV y).toNat n.toNat r c) ∧
        (t.changed = true ↔ s.changed = true ∨ ∃ i, i < n.toNat ∧ s.byteAt (s.I.toNat + i) ≠ 0) ∧
        KeepsVExcept VF s t ∧ t = { s with fb := t.fb, V := t.V, changed := t.changed } ∧ KeepsBytes s t) ∧
    (n.toNat ≠ 0 → s.I.toNat ≤ 0xFFF → 0x1000 < s.I.toNat + n.toNat →
      ∃ t, exec (.drw x y n) s = .next t ∧ FaultTaken s t .memoryOutOfRange 0x1000)

/-- R67: the sprite's positions are distinct pixels; a pixel flips exactly where its sprite bit is 1; the same sprite drawn
twice in succession at coordinates not in VF restores every pixel, and the second VF says whether the first turned a pixel
on; column 63 + 1 is column 0. -/
def Obligations.DrawingTwiceRestoresTheScreen : Prop :=
  (∀ cx cy i j i' j' : Nat, i < 15 → i' < 15 → j < 8 → j' < 8 →
    rowMod (cy + i) = rowMod (cy + i') → colMod (cx + j) = colMod (cx + j') → i = i' ∧ j = j') ∧
  (∀ (x y : RegIdx) (n : BitVec 4) (s t : State), s.I.toNat + n.toNat ≤ 0x1000 → exec (.drw x y n) s = .next t →
    (∀ r c, Framebuffer.pixel t.fb r c ≠ Framebuffer.pixel s.fb r c ↔
      SpriteOn s (s.getV x).toNat (s.getV y).toNat n.toNat r c) ∧
    (s.changed = false → (t.changed = true ↔ ∃ i, i < n.toNat ∧ s.byteAt (s.I.toNat + i) ≠ 0))) ∧
  (∀ (x y : RegIdx) (n : BitVec 4) (s t u : State), x ≠ VF → y ≠ VF → s.I.toNat + n.toNat ≤ 0x1000 →
    exec (.drw x y n) s = .next t → exec (.drw x y n) t = .next u →
    u.fb = s.fb ∧
    ((u.getV VF).toNat = 1 ↔ ∃ r c, Framebuffer.pixel s.fb r c = false ∧ Framebuffer.pixel t.fb r c = true) ∧
    ((∀ r c, Framebuffer.pixel s.fb r c = false) →
      ((u.getV VF).toNat = 1 ↔ ∃ i, i < n.toNat ∧ s.byteAt (s.I.toNat + i) ≠ 0))) ∧
  (∀ (x y : RegIdx) (s t : State), (s.getV x).toNat = 63 → s.I.toNat ≤ 0xFFF → exec (.drw x y 1) s = .next t →
    ∀ r : Fin 32, r.val = (s.getV y).toNat % 32 → (s.byteAt s.I.toNat).getLsbD 6 = true →
      Framebuffer.pixel t.fb r 0 = !Framebuffer.pixel s.fb r 0)

/-! ### Control flow (41_control_flow.md) -/

/-- R69: SYS does nothing; its words are those of op 0 but 00E0 and 00EE under the spec's parameter values, and but
every 0xE0 and 0xEE under DECODE_OP0_IGNORE_X = true (R58). -/
def Obligations.SysIsANoOp : Prop :=
  (∀ nnn : BitVec 12, nnn ≠ 0x0E0 → nnn ≠ 0x0EE →
    decode Params.spec (BitVec.ofNat 16 nnn.toNat) = .accept (.sys nnn)) ∧
  (∀ (p : Params) (w : Word) (nnn : BitVec 12), decode p w = .accept (.sys nnn) ↔
    w.toNat = nnn.toNat ∧ nnn ≠ 0x0E0 ∧ nnn ≠ 0x0EE ∧
    (p.decodeOp0IgnoreX = true → nnn.toNat % 256 ≠ 0xE0 ∧ nnn.toNat % 256 ≠ 0xEE)) ∧
  ∀ (nnn : BitVec 12) (s : State), exec (.sys nnn) s = .next s

/-- R70: RET pops the return address into pc; the entry keeps its value; with an empty stack it faults. Its word is
00EE alone, but that DECODE_OP0_IGNORE_X = true adds the words 0xEE (R58). -/
def Obligations.RetPopsIntoPc : Prop :=
  DecodesTo 0x00EE .ret ∧ (∀ w, decode Params.spec w = .accept .ret → w = 0x00EE) ∧
  (∀ (p : Params) (w : Word), decode p w = .accept .ret ↔
    w = 0x00EE ∨ (p.decodeOp0IgnoreX = true ∧ w.toNat / 4096 = 0x0 ∧ w.toNat % 256 = 0xEE)) ∧
  (∀ (s : State) (k : Fin 16), s.sp.val = k.val + 1 →
    ∃ t, exec .ret s = .next t ∧ t.pc = s.stack[k] ∧ t.sp.val = k.val ∧
      t = { s with pc := t.pc, sp := t.sp } ∧ KeepsBytes s t) ∧
  (∀ s : State, s.sp.val = 0 → ∃ t, exec .ret s = .next t ∧ FaultTaken s t .stackUnderflow 0)

/-- R71: JP. -/
def Obligations.JpSetsPc : Prop :=
  (∀ nnn : BitVec 12, DecodesTo (0x1000 + nnn.toNat) (.jp nnn)) ∧
  ∀ (nnn : BitVec 12) (s : State), ∃ t, exec (.jp nnn) s = .next t ∧ t.pc.toNat = nnn.toNat ∧ OnlyPc s t

/-- R72: CALL pushes the address after it, which pc already is, and jumps; on a full stack it faults. -/
def Obligations.CallPushesPcAndJumps : Prop :=
  (∀ nnn : BitVec 12, DecodesTo (0x2000 + nnn.toNat) (.call nnn)) ∧
  (∀ (nnn : BitVec 12) (s : State) (k : Fin 16), s.sp.val = k.val →
    ∃ t, exec (.call nnn) s = .next t ∧ t.pc.toNat = nnn.toNat ∧ t.sp.val = k.val + 1 ∧ t.stack[k] = s.pc ∧
      (∀ j : Fin 16, j ≠ k → t.stack[j] = s.stack[j]) ∧
      t = { s with pc := t.pc, sp := t.sp, stack := t.stack } ∧ KeepsBytes s t) ∧
  (∀ (nnn : BitVec 12) (s : State), s.sp.val = 16 →
    ∃ t, exec (.call nnn) s = .next t ∧ FaultTaken s t .stackOverflow 16)

/-- R78: a CALL and then, at the depth the CALL left and with the entry the CALL pushed, a RET brings pc back to the
address after the CALL, and the depth to what it was; and code that leaves the stack balanced, however it nests calls,
keeps that entry: a run without a Reset keeps the entries below a depth that it never goes under. -/
def Obligations.CallThenRetComesBack : Prop :=
  (∀ (nnn : BitVec 12) (s t u : State) (k : Fin 16), k.val = s.sp.val → exec (.call nnn) s = .next t →
    u.sp = t.sp → u.stack[k] = t.stack[k] → ∃ v, exec .ret u = .next v ∧ v.pc = s.pc ∧ v.sp = s.sp) ∧
  (∀ (n : Nat) (t u : State), Sys2Proof.core.run n t = .next u →
    (∀ (m : Nat) (v : State), m < n → Sys2Proof.core.run m t = .next v →
      t.sp.val ≤ v.sp.val ∧ ∀ now0 rest, v.calls ≠ .reset now0 :: rest) →
    ∀ k : Fin 16, k.val < t.sp.val → u.stack[k] = t.stack[k])

/-- R68: the skip primitive. -/
def Obligations.SkipAddsTwo : Prop :=
  ∀ s : State,
    (s.pc.toNat + 2 ≤ 0xFFF → ∃ t, skip s = .ok t ∧ t.pc.toNat = s.pc.toNat + 2 ∧ OnlyPc s t) ∧
    (0xFFF < s.pc.toNat + 2 → skip s = .error ⟨.pcOutOfRange, s.pc.toNat + 2⟩)

/-- R73, R74: SE_VB and SNE_VB. -/
def Obligations.SkipsOnAByte : Prop :=
  (∀ (x : RegIdx) (kk : Byte), DecodesTo (0x3000 + 0x100 * x.val + kk.toNat) (.seVB x kk) ∧
    DecodesTo (0x4000 + 0x100 * x.val + kk.toNat) (.sneVB x kk)) ∧
  ∀ (x : RegIdx) (kk : Byte) (s : State),
    (∃ t, exec (.seVB x kk) s = .next t ∧ SkipsWhen ((s.getV x).toNat = kk.toNat) s t) ∧
    (∃ t, exec (.sneVB x kk) s = .next t ∧ SkipsWhen ((s.getV x).toNat ≠ kk.toNat) s t)

/-- R75, R76: SE_VV and SNE_VV. Their words are 5xy0 and 9xy0 alone, but that DECODE_5_9_IGNORE_N = true adds 5xyN and 9xyN
for every N (R58). -/
def Obligations.SkipsOnARegister : Prop :=
  (∀ x y : RegIdx, DecodesTo (0x5000 + 0x100 * x.val + 0x10 * y.val) (.seVV x y) ∧
    DecodesTo (0x9000 + 0x100 * x.val + 0x10 * y.val) (.sneVV x y)) ∧
  (∀ (p : Params) (w : Word) (x y : RegIdx),
    (decode p w = .accept (.seVV x y) ↔ ∃ n : BitVec 4, (n = 0 ∨ p.decode59IgnoreN = true) ∧
      w.toNat = 0x5000 + 0x100 * x.val + 0x10 * y.val + n.toNat) ∧
    (decode p w = .accept (.sneVV x y) ↔ ∃ n : BitVec 4, (n = 0 ∨ p.decode59IgnoreN = true) ∧
      w.toNat = 0x9000 + 0x100 * x.val + 0x10 * y.val + n.toNat)) ∧
  ∀ (x y : RegIdx) (s : State),
    (∃ t, exec (.seVV x y) s = .next t ∧ SkipsWhen ((s.getV x).toNat = (s.getV y).toNat) s t) ∧
    (∃ t, exec (.sneVV x y) s = .next t ∧ SkipsWhen ((s.getV x).toNat ≠ (s.getV y).toNat) s t)

/-- R77: JP_V0 adds V0 to the address, and faults past 0xFFF. -/
def Obligations.JpV0AddsV0 : Prop :=
  (∀ nnn : BitVec 12, DecodesTo (0xB000 + nnn.toNat) (.jpV0 nnn)) ∧
  (∀ (nnn : BitVec 12) (s : State), nnn.toNat + (s.getV 0).toNat ≤ 0xFFF →
    ∃ t, exec (.jpV0 nnn) s = .next t ∧ t.pc.toNat = nnn.toNat + (s.getV 0).toNat ∧ OnlyPc s t) ∧
  (∀ (nnn : BitVec 12) (s : State), 0xFFF < nnn.toNat + (s.getV 0).toNat →
    ∃ t, exec (.jpV0 nnn) s = .next t ∧ FaultTaken s t .pcOutOfRange (nnn.toNat + (s.getV 0).toNat))

/-! ### Arithmetic and logic (42_arithmetic_logic.md) -/

/-- R80, R81, R82: LD_VB, ADD_VB (modulo 256, no flag) and LD_VV. -/
def Obligations.LoadsAndImmediateAdd : Prop :=
  (∀ (x : RegIdx) (kk : Byte), DecodesTo (0x6000 + 0x100 * x.val + kk.toNat) (.ldVB x kk) ∧
    DecodesTo (0x7000 + 0x100 * x.val + kk.toNat) (.addVB x kk)) ∧
  (∀ x y : RegIdx, DecodesTo (0x8000 + 0x100 * x.val + 0x10 * y.val) (.ldVV x y)) ∧
  ∀ (x y : RegIdx) (kk : Byte) (s : State),
    (∃ t, exec (.ldVB x kk) s = .next t ∧ WritesV s t x kk.toNat) ∧
    (∃ t, exec (.addVB x kk) s = .next t ∧ WritesV s t x (((s.getV x).toNat + kk.toNat) % 256)) ∧
    (∃ t, exec (.ldVV x y) s = .next t ∧ WritesV s t x (s.getV y).toNat)

/-- R83, R84, R85: OR, AND and XOR write Vx alone; VF is not reset. -/
def Obligations.LogicWritesVxAlone : Prop :=
  (∀ x y : RegIdx, DecodesTo (0x8001 + 0x100 * x.val + 0x10 * y.val) (.orVV x y) ∧
    DecodesTo (0x8002 + 0x100 * x.val + 0x10 * y.val) (.andVV x y) ∧
    DecodesTo (0x8003 + 0x100 * x.val + 0x10 * y.val) (.xorVV x y)) ∧
  ∀ (x y : RegIdx) (s : State),
    (∃ t, exec (.orVV x y) s = .next t ∧ WritesV s t x ((s.getV x).toNat ||| (s.getV y).toNat)) ∧
    (∃ t, exec (.andVV x y) s = .next t ∧ WritesV s t x ((s.getV x).toNat &&& (s.getV y).toNat)) ∧
    (∃ t, exec (.xorVV x y) s = .next t ∧ WritesV s t x ((s.getV x).toNat ^^^ (s.getV y).toNat))

/-- R86: ADD_VV, under both values of ALU_VF_ORDER: with x = F the sum overwrites the flag in SEQUENTIAL, the flag the sum
in RESULT_THEN_FLAG. -/
def Obligations.AddVVSetsTheCarry : Prop :=
  (∀ x y : RegIdx, DecodesTo (0x8004 + 0x100 * x.val + 0x10 * y.val) (.addVV x y)) ∧
  ∀ (x y : RegIdx) (s : State), ∃ t, exec (.addVV x y) s = .next t ∧ OnlyV s t ∧
    (∀ k, k ≠ x → k ≠ VF → t.getV k = s.getV k) ∧
    (x ≠ VF ∨ s.params.aluVfOrder = .sequential →
      (t.getV x).toNat = ((s.getV x).toNat + (s.getV y).toNat) % 256) ∧
    (x ≠ VF ∨ s.params.aluVfOrder = .resultThenFlag →
      (t.getV VF).toNat = if 255 < (s.getV x).toNat + (s.getV y).toNat then 1 else 0)

/-- R87, R89: SUB and SUBN, under both values of ALU_VF_ORDER. `f` is the flag, the strict comparison. In SEQUENTIAL the
result is computed from the registers with `f` already in VF. -/
def Obligations.SubtractionsSetTheStrictFlag : Prop :=
  (∀ x y : RegIdx, DecodesTo (0x8005 + 0x100 * x.val + 0x10 * y.val) (.sub x y) ∧
    DecodesTo (0x8007 + 0x100 * x.val + 0x10 * y.val) (.subn x y)) ∧
  (∀ (x y : RegIdx) (s : State), ∃ t, exec (.sub x y) s = .next t ∧ OnlyV s t ∧
    (∀ k, k ≠ x → k ≠ VF → t.getV k = s.getV k) ∧
    ∃ f : Nat, f = (if (s.getV y).toNat < (s.getV x).toNat then 1 else 0) ∧
      (s.params.aluVfOrder = .sequential →
        (t.getV x).toNat = ((if x = VF then f else (s.getV x).toNat) + 256 -
          (if y = VF then f else (s.getV y).toNat)) % 256 ∧
        (x ≠ VF → (t.getV VF).toNat = f)) ∧
      (s.params.aluVfOrder = .resultThenFlag →
        (t.getV VF).toNat = f ∧
        (x ≠ VF → (t.getV x).toNat = ((s.getV x).toNat + 256 - (s.getV y).toNat) % 256))) ∧
  (∀ (x y : RegIdx) (s : State), ∃ t, exec (.subn x y) s = .next t ∧ OnlyV s t ∧
    (∀ k, k ≠ x → k ≠ VF → t.getV k = s.getV k) ∧
    ∃ f : Nat, f = (if (s.getV x).toNat < (s.getV y).toNat then 1 else 0) ∧
      (s.params.aluVfOrder = .sequential →
        (t.getV x).toNat = ((if y = VF then f else (s.getV y).toNat) + 256 -
          (if x = VF then f else (s.getV x).toNat)) % 256 ∧
        (x ≠ VF → (t.getV VF).toNat = f)) ∧
      (s.params.aluVfOrder = .resultThenFlag →
        (t.getV VF).toNat = f ∧
        (x ≠ VF → (t.getV x).toNat = ((s.getV y).toNat + 256 - (s.getV x).toNat) % 256)))

/-- R88, R90: SHR and SHL shift Vx by one and put the bit shifted out into VF, under both values of ALU_VF_ORDER; y is
encoded and ignored. -/
def Obligations.ShiftsKeepTheBitShiftedOut : Prop :=
  (∀ x y : RegIdx, DecodesTo (0x8006 + 0x100 * x.val + 0x10 * y.val) (.shr x y) ∧
    DecodesTo (0x800E + 0x100 * x.val + 0x10 * y.val) (.shl x y)) ∧
  (∀ (x y : RegIdx) (s : State), ∃ t, exec (.shr x y) s = .next t ∧ OnlyV s t ∧
    (∀ k, k ≠ x → k ≠ VF → t.getV k = s.getV k) ∧
    (x ≠ VF → (t.getV x).toNat = (s.getV x).toNat / 2 ∧ (t.getV VF).toNat = (s.getV x).toNat % 2) ∧
    (x = VF → s.params.aluVfOrder = .sequential → (t.getV VF).toNat = 0) ∧
    (x = VF → s.params.aluVfOrder = .resultThenFlag → (t.getV VF).toNat = (s.getV x).toNat % 2)) ∧
  (∀ (x y : RegIdx) (s : State), ∃ t, exec (.shl x y) s = .next t ∧ OnlyV s t ∧
    (∀ k, k ≠ x → k ≠ VF → t.getV k = s.getV k) ∧
    (x ≠ VF → (t.getV x).toNat = 2 * (s.getV x).toNat % 256 ∧ (t.getV VF).toNat = (s.getV x).toNat / 128) ∧
    (x = VF → s.params.aluVfOrder = .sequential → (t.getV VF).toNat = 2 * ((s.getV x).toNat / 128)) ∧
    (x = VF → s.params.aluVfOrder = .resultThenFlag → (t.getV VF).toNat = (s.getV x).toNat / 128))

/-- R91: RND masks the cycle's random byte, whatever it is. -/
def Obligations.RndMasksTheRandomByte : Prop :=
  (∀ (x : RegIdx) (kk : Byte), DecodesTo (0xC000 + 0x100 * x.val + kk.toNat) (.rnd x kk)) ∧
  ∀ (x : RegIdx) (kk : Byte) (s : State), ∃ t, exec (.rnd x kk) s = .next t ∧
    WritesV s t x (s.input.rnd.toNat &&& kk.toNat)

/-! ### Memory and index (43_memory_index.md) -/

/-- R94: LD_I. -/
def Obligations.LdISetsI : Prop :=
  (∀ nnn : BitVec 12, DecodesTo (0xA000 + nnn.toNat) (.ldI nnn)) ∧
  ∀ (nnn : BitVec 12) (s : State), ∃ t, exec (.ldI nnn) s = .next t ∧ t.I.toNat = nnn.toNat ∧ OnlyI s t

/-- R95: ADD_I_V leaves VF alone, and faults past 0xFFF. -/
def Obligations.AddIVIsBounded : Prop :=
  (∀ x : RegIdx, DecodesTo (0xF01E + 0x100 * x.val) (.addIV x)) ∧
  (∀ (x : RegIdx) (s : State), s.I.toNat + (s.getV x).toNat ≤ 0xFFF →
    ∃ t, exec (.addIV x) s = .next t ∧ t.I.toNat = s.I.toNat + (s.getV x).toNat ∧ OnlyI s t) ∧
  (∀ (x : RegIdx) (s : State), 0xFFF < s.I.toNat + (s.getV x).toNat →
    ∃ t, exec (.addIV x) s = .next t ∧ FaultTaken s t .indexOutOfRange (s.I.toNat + (s.getV x).toNat))

/-- R96: LD_F_V, under both values of FX29_MASK_DIGIT. -/
def Obligations.LdFVPointsAtTheGlyph : Prop :=
  (∀ x : RegIdx, DecodesTo (0xF029 + 0x100 * x.val) (.ldFV x)) ∧
  ∀ (x : RegIdx) (s : State), ∃ t, exec (.ldFV x) s = .next t ∧ OnlyI s t ∧
    (s.params.fx29MaskDigit = true → t.I.toNat = 0x050 + 5 * ((s.getV x).toNat % 16)) ∧
    (s.params.fx29MaskDigit = false → t.I.toNat = 0x050 + 5 * (s.getV x).toNat)

/-- R97: LD_B_V stores the three decimal digits at I, I+1, I+2, or faults before any byte is written. -/
def Obligations.LdBVStoresTheDigits : Prop :=
  (∀ x : RegIdx, DecodesTo (0xF033 + 0x100 * x.val) (.ldBV x)) ∧
  (∀ (x : RegIdx) (s : State), s.I.toNat + 2 ≤ 0xFFF →
    ∃ t, exec (.ldBV x) s = .next t ∧
      (t.byteAt s.I.toNat).toNat = (s.getV x).toNat / 100 ∧
      (t.byteAt (s.I.toNat + 1)).toNat = (s.getV x).toNat / 10 % 10 ∧
      (t.byteAt (s.I.toNat + 2)).toNat = (s.getV x).toNat % 10 ∧
      (∀ a, a < s.I.toNat ∨ s.I.toNat + 2 < a → t.byteAt a = s.byteAt a) ∧ t = { s with mem := t.mem }) ∧
  (∀ (x : RegIdx) (s : State), 0xFFF < s.I.toNat + 2 →
    ∃ t, exec (.ldBV x) s = .next t ∧ FaultTaken s t .memoryOutOfRange 0x1000)

/-- R98: LD_MEM_V stores V0 to Vx at I to I+x and leaves I alone, or faults before any byte is written. -/
def Obligations.LdMemVStoresTheRegisters : Prop :=
  (∀ x : RegIdx, DecodesTo (0xF055 + 0x100 * x.val) (.ldMemV x)) ∧
  (∀ (x : RegIdx) (s : State), s.I.toNat + x.val ≤ 0xFFF →
    ∃ t, exec (.ldMemV x) s = .next t ∧
      (∀ k : RegIdx, k ≤ x → t.byteAt (s.I.toNat + k.val) = s.getV k) ∧
      (∀ a, a < s.I.toNat ∨ s.I.toNat + x.val < a → t.byteAt a = s.byteAt a) ∧ t = { s with mem := t.mem }) ∧
  (∀ (x : RegIdx) (s : State), 0xFFF < s.I.toNat + x.val →
    ∃ t, exec (.ldMemV x) s = .next t ∧ FaultTaken s t .memoryOutOfRange 0x1000)

/-- R99: LD_V_MEM loads V0 to Vx from I to I+x and leaves I and the further registers alone, or faults before any register
is written. -/
def Obligations.LdVMemLoadsTheRegisters : Prop :=
  (∀ x : RegIdx, DecodesTo (0xF065 + 0x100 * x.val) (.ldVMem x)) ∧
  (∀ (x : RegIdx) (s : State), s.I.toNat + x.val ≤ 0xFFF →
    ∃ t, exec (.ldVMem x) s = .next t ∧
      (∀ k : RegIdx, k ≤ x → t.getV k = s.byteAt (s.I.toNat + k.val)) ∧
      (∀ k : RegIdx, x < k → t.getV k = s.getV k) ∧ OnlyV s t) ∧
  (∀ (x : RegIdx) (s : State), 0xFFF < s.I.toNat + x.val →
    ∃ t, exec (.ldVMem x) s = .next t ∧ FaultTaken s t .memoryOutOfRange 0x1000)

/-! ### Keyboard and timers (44_input_timers.md, 60_exceptions.md) -/

/-- R100, R101, R102: SKP and SKNP test the key of Vx's low nibble. -/
def Obligations.SkipsOnAKey : Prop :=
  (∀ x : RegIdx, DecodesTo (0xE09E + 0x100 * x.val) (.skp x) ∧ DecodesTo (0xE0A1 + 0x100 * x.val) (.sknp x)) ∧
  ∀ (x : RegIdx) (s : State) (k : KeyIdx), k.val = (s.getV x).toNat % 16 →
    (∃ t, exec (.skp x) s = .next t ∧ SkipsWhen (s.input.keys[k] = true) s t) ∧
    (∃ t, exec (.sknp x) s = .next t ∧ SkipsWhen (s.input.keys[k] = false) s t)

/-- R103: LD_V_DT. -/
def Obligations.LdVDTReadsTheTimer : Prop :=
  (∀ x : RegIdx, DecodesTo (0xF007 + 0x100 * x.val) (.ldVDT x)) ∧
  ∀ (x : RegIdx) (s : State), ∃ t, exec (.ldVDT x) s = .next t ∧ WritesV s t x s.DT.toNat

/-- R104: LD_V_K waits while no key is held; else it gives a held key, and every held key is given under some draw. How
the draw picks it (the last clause) is the model's choice (log entry 9). -/
def Obligations.LdVKWaitsForAKey : Prop :=
  (∀ x : RegIdx, DecodesTo (0xF00A + 0x100 * x.val) (.ldVK x)) ∧
  (∀ (x : RegIdx) (s : State), (∀ k : KeyIdx, s.input.keys[k] = false) →
    ∃ t, exec (.ldVK x) s = .next t ∧ t.pc = s.pc - 2 ∧ OnlyPc s t) ∧
  (∀ (x : RegIdx) (s : State), (∃ k : KeyIdx, s.input.keys[k] = true) →
    ∃ (t : State) (k : KeyIdx), exec (.ldVK x) s = .next t ∧ s.input.keys[k] = true ∧ WritesV s t x k.val) ∧
  (∀ (x : RegIdx) (s : State) (k : KeyIdx), s.input.keys[k] = true → s.input.keyDraw = k →
    ∃ t, exec (.ldVK x) s = .next t ∧ WritesV s t x k.val)

/-- R105, R106: LD_DT_V also restarts the timer period; LD_ST_V does not. -/
def Obligations.TimersAreSet : Prop :=
  (∀ x : RegIdx, DecodesTo (0xF015 + 0x100 * x.val) (.ldDTV x) ∧ DecodesTo (0xF018 + 0x100 * x.val) (.ldSTV x)) ∧
  ∀ (x : RegIdx) (s : State),
    (∃ t, exec (.ldDTV x) s = .next t ∧ t.DT.toNat = (s.getV x).toNat ∧ t.lastTick = s.input.now ∧
      t = { s with DT := t.DT, lastTick := t.lastTick } ∧ KeepsBytes s t) ∧
    (∃ t, exec (.ldSTV x) s = .next t ∧ t.ST.toNat = (s.getV x).toNat ∧ t = { s with ST := t.ST } ∧ KeepsBytes s t)

/-- R115: the timer step, in rational seconds; it ends every cycle that did not fault, and no other. -/
def Obligations.TimerStepDecrementsBoth : Prop :=
  (∀ s : State, (s.isFaulted → s.endCycle = s) ∧ (¬ s.isFaulted → s.endCycle = s.timerStep)) ∧
  ∀ s : State,
    let e := s.input.now - s.lastTick
    (e > 1 / 60 ∨ (e = 1 / 60 ∧ s.input.tickAtBoundary = true) →
      s.timerStep.DT.toNat = s.DT.toNat - 1 ∧ s.timerStep.ST.toNat = s.ST.toNat - 1 ∧
      s.timerStep.lastTick = s.input.now ∧
      s.timerStep = { s with DT := s.timerStep.DT, ST := s.timerStep.ST, lastTick := s.timerStep.lastTick }) ∧
    (e < 1 / 60 ∨ (e = 1 / 60 ∧ s.input.tickAtBoundary = false) → s.timerStep = s)

/-- R116: in a cycle that executes no Fx15, DT is unchanged or one less, the latter only after at least 1/60 s; and it is
one less (or still 0) where more than 1/60 s has passed and the cycle does not fault. -/
def Obligations.DelayTimerFallsByOneAtMost : Prop :=
  ∀ (s t : State) (input : CycleInput) (rest : List HostCall), s.runsCycle input rest → step s = .next t →
    (∀ x, s.decodedAtPc ≠ .accept (.ldDTV x)) →
    (t.DT = s.DT ∨ (t.DT.toNat + 1 = s.DT.toNat ∧ 1 / 60 ≤ input.now - s.lastTick)) ∧
    (¬ t.isFaulted → 1 / 60 < input.now - s.lastTick → t.DT.toNat = s.DT.toNat - 1)

/-- R134: a cycle that executes Fx15 decrements neither timer, under either draw; one that executes Fx18 decrements the
fresh ST when a tick is due. -/
def Obligations.Fx15CyclesNeverDecrement : Prop :=
  ∀ (s : State) (input : CycleInput) (rest : List HostCall) (x : RegIdx),
    s.runsCycle input rest → s.pc.toNat ≤ 0xFFD →
    (s.decodedAtPc = .accept (.ldDTV x) →
      ∃ t, step s = .next t ∧ t.DT = s.getV x ∧ t.ST = s.ST ∧ t.lastTick = input.now) ∧
    (s.decodedAtPc = .accept (.ldSTV x) → 1 / 60 < input.now - s.lastTick →
      ∃ t, step s = .next t ∧ t.ST.toNat = (s.getV x).toNat - 1 ∧ t.DT.toNat = s.DT.toNat - 1 ∧
        t.lastTick = input.now)

/-! ### Faults (60_exceptions.md) -/

/-- R107: the codes, and the only causes of a fault with the kind and the value each gives, from every state that meets
the invariant. -/
def Obligations.FaultsHaveOnlyTheListedCauses : Prop :=
  (FaultKind.code .stackOverflow = 1 ∧ FaultKind.code .stackUnderflow = 2 ∧ FaultKind.code .memoryOutOfRange = 3 ∧
    FaultKind.code .pcOutOfRange = 4 ∧ FaultKind.code .indexOutOfRange = 5) ∧
  ∀ (s t : State) (input : CycleInput) (rest : List HostCall) (r : FaultRecord),
    s.Inv → s.runsCycle input rest → step s = .next t → t.status = .faulted r →
    (s.pc.toNat = 0xFFF ∧ r.kind = .memoryOutOfRange ∧ r.faultValue = 0x1000) ∨
    (s.pc.toNat = 0xFFE ∧ r.kind = .pcOutOfRange ∧ r.faultValue = 0x1000) ∨
    (s.pc.toNat ≤ 0xFFD ∧ ∃ i, s.decodedAtPc = .accept i ∧
      ((r.kind = .stackOverflow ∧ r.faultValue = 16 ∧ s.sp.val = 16 ∧ ∃ nnn, i = .call nnn) ∨
       (r.kind = .stackUnderflow ∧ r.faultValue = 0 ∧ s.sp.val = 0 ∧ i = .ret) ∨
       (r.kind = .memoryOutOfRange ∧ r.faultValue = 0x1000 ∧
        ((∃ x y n, i = .drw x y n ∧ 0x1000 < s.I.toNat + n.toNat) ∨
         (∃ x, i = .ldBV x ∧ 0xFFF < s.I.toNat + 2) ∨
         (∃ x : RegIdx, (i = .ldMemV x ∨ i = .ldVMem x) ∧ 0xFFF < s.I.toNat + x.val))) ∨
       (r.kind = .pcOutOfRange ∧ r.faultValue = s.pc.toNat + 4 ∧ (s.pc.toNat = 0xFFC ∨ s.pc.toNat = 0xFFD) ∧ IsSkip i) ∨
       (r.kind = .pcOutOfRange ∧ ∃ nnn, i = .jpV0 nnn ∧ r.faultValue = nnn.toNat + (s.getV 0).toNat ∧
        0xFFF < r.faultValue) ∨
       (r.kind = .indexOutOfRange ∧ ∃ x, i = .addIV x ∧ r.faultValue = s.I.toNat + (s.getV x).toNat ∧
        0xFFF < r.faultValue)))

/-- R108: a cycle that faults leaves all architectural state as it was at its start; only the status, the outputs and the
host's side differ, and `fault_pc` is the pc the cycle fetched from. Faulted is final: only a Reset leaves it. -/
def Obligations.AFaultChangesNothingElse : Prop :=
  (∀ (s t : State) (input : CycleInput) (rest : List HostCall) (r : FaultRecord),
    s.runsCycle input rest → step s = .next t → t.status = .faulted r →
    r.faultPc = s.pc ∧
    t = { s with status := .faulted r, changed := false, input := input, calls := rest } ∧ KeepsBytes s t) ∧
  (∀ (s t : State) (r : FaultRecord), s.status = .faulted r → (∀ now0 rest, s.calls ≠ .reset now0 :: rest) →
    step s = .next t →
    t = { s with changed := t.changed, lastLoad := t.lastLoad, calls := t.calls } ∧ KeepsBytes s t)

/-! ### Runs (70_reset_and_hazards.md) -/

/-- R71, R136: a run that stops at a self-jump below 0xFFE stays there: a later cycle is the timer step and nothing
else. -/
def Obligations.ASelfJumpIsForever : Prop :=
  ∀ (s : State) (input : CycleInput) (rest : List HostCall), s.atSelfJump → s.pc.toNat ≤ 0xFFD →
    s.runsCycle input rest →
    ∃ t, step s = .next t ∧ t.atSelfJump ∧
      t = State.timerStep { s with changed := false, input := input, calls := rest } ∧
      t = { s with
        DT := t.DT, ST := t.ST, lastTick := t.lastTick, changed := false, input := input, calls := rest }

/-- R133: a cycle of the Fx0A wait with no key held is the timer step and nothing else, and the run still waits there, at
the same pc; a cycle with a key held ends the wait. -/
def Obligations.AKeyWaitChangesTheTimersAlone : Prop :=
  ∀ (s : State) (input : CycleInput) (rest : List HostCall), s.atKeyWait → s.pc.toNat ≤ 0xFFD →
    s.runsCycle input rest →
    ((∀ k : KeyIdx, input.keys[k] = false) →
      ∃ t, step s = .next t ∧ t.atKeyWait ∧
        t = State.timerStep { s with changed := false, input := input, calls := rest } ∧
        t = { s with
          DT := t.DT, ST := t.ST, lastTick := t.lastTick, changed := false, input := input, calls := rest }) ∧
    ((∃ k : KeyIdx, input.keys[k] = true) → ∃ t, step s = .next t ∧ t.pc.toNat = s.pc.toNat + 2)

/-! ### The decoder's parameters (30_encoding.md) -/

/-- R58: what the two decoder parameters decide, and that nothing else depends on them: where no Cycle runs a word of
R58, a step is the same under every value of both. -/
def Obligations.DecoderParametersDecideTheWordsOfR58 : Prop :=
  (∀ (p : Params) (x : RegIdx), x ≠ 0 →
    (p.decodeOp0IgnoreX = true →
      decode p (BitVec.ofNat 16 (0x100 * x.val + 0xE0)) = .accept .cls ∧
      decode p (BitVec.ofNat 16 (0x100 * x.val + 0xEE)) = .accept .ret) ∧
    (p.decodeOp0IgnoreX = false →
      decode p (BitVec.ofNat 16 (0x100 * x.val + 0xE0)) = .accept (.sys (BitVec.ofNat 12 (0x100 * x.val + 0xE0))) ∧
      decode p (BitVec.ofNat 16 (0x100 * x.val + 0xEE)) = .accept (.sys (BitVec.ofNat 12 (0x100 * x.val + 0xEE))))) ∧
  (∀ (p : Params) (x y : RegIdx) (n : BitVec 4), n ≠ 0 →
    (p.decode59IgnoreN = true →
      decode p (BitVec.ofNat 16 (0x5000 + 0x100 * x.val + 0x10 * y.val + n.toNat)) = .accept (.seVV x y) ∧
      decode p (BitVec.ofNat 16 (0x9000 + 0x100 * x.val + 0x10 * y.val + n.toNat)) = .accept (.sneVV x y)) ∧
    (p.decode59IgnoreN = false →
      decode p (BitVec.ofNat 16 (0x5000 + 0x100 * x.val + 0x10 * y.val + n.toNat)) = .reject .unknown5xyN ∧
      decode p (BitVec.ofNat 16 (0x9000 + 0x100 * x.val + 0x10 * y.val + n.toNat)) = .reject .unknown9xyN)) ∧
  (∀ (s t : State) (ignoreX ignoreN : Bool),
    (∀ input rest, s.runsCycle input rest → s.pc.toNat ≤ 0xFFD → ¬ ReadsDecoderParams s.bytesAtPc) →
    step s = .next t →
    step (s.withDecoderParams ignoreX ignoreN) = .next (t.withDecoderParams ignoreX ignoreN))
end

