-- ==== Sys2Proof/Laws/Decode.lean ====
section
/-! SUPPORT. The fields of a word as numbers, the words of the encoder as numbers, and that each gives back the other
(spec/30_encoding.md R52; 20_memory.md R37, R38). -/

namespace Sys2Proof

/-! ### Fields of a word as numbers (R52) -/

section
variable (w : Word)

theorem opField_toNat : (opField w).toNat = w.toNat / 4096 := by
  have := w.isLt
  simp [opField, BitVec.extractLsb'_toNat, Nat.shiftRight_eq_div_pow]; omega

theorem xField_val : (xField w).val = w.toNat / 256 % 16 := by
  simp [xField, Nat.shiftRight_eq_div_pow]

theorem yField_val : (yField w).val = w.toNat / 16 % 16 := by
  simp [yField, Nat.shiftRight_eq_div_pow]

theorem nField_toNat : (nField w).toNat = w.toNat % 16 := by
  simp [nField, BitVec.extractLsb'_toNat]

theorem kkField_toNat : (kkField w).toNat = w.toNat % 256 := by
  simp [kkField, BitVec.extractLsb'_toNat]

theorem nnnField_toNat : (nnnField w).toNat = w.toNat % 4096 := by
  simp [nnnField, BitVec.extractLsb'_toNat]
end

/-! ### Words made of fields, as numbers -/

/-- Concatenation as arithmetic. -/
theorem toNat_append_eq {a b : Nat} (u : BitVec a) (v : BitVec b) : (u ++ v).toNat = u.toNat * 2 ^ b + v.toNat := by
  rw [BitVec.toNat_append, ← Nat.shiftLeft_add_eq_or_of_lt v.isLt, Nat.shiftLeft_eq]

theorem wordOfBytes_toNat (hi lo : Byte) : (wordOfBytes hi lo).toNat = hi.toNat * 256 + lo.toNat :=
  toNat_append_eq hi lo

@[simp] theorem regField_toNat (x : RegIdx) : (regField x).toNat = x.val := rfl

theorem formNNN_toNat (op : BitVec 4) (nnn : BitVec 12) :
    (formNNN op nnn).toNat = op.toNat * 4096 + nnn.toNat := toNat_append_eq op nnn

theorem formXKK_toNat (op : BitVec 4) (x : RegIdx) (kk : Byte) :
    (formXKK op x kk).toNat = op.toNat * 4096 + x.val * 256 + kk.toNat := by
  have h : (formXKK op x kk).toNat = op.toNat * 2 ^ 12 + (regField x ++ kk).toNat := toNat_append_eq op (regField x ++ kk)
  rw [h, toNat_append_eq (regField x) kk, regField_toNat]; ring

theorem formXYN_toNat (op : BitVec 4) (x y : RegIdx) (n : BitVec 4) :
    (formXYN op x y n).toNat = op.toNat * 4096 + x.val * 256 + y.val * 16 + n.toNat := by
  have h : (formXYN op x y n).toNat = op.toNat * 2 ^ 12 + (regField x ++ (regField y ++ n)).toNat :=
    toNat_append_eq op (regField x ++ (regField y ++ n))
  have h' : (regField x ++ (regField y ++ n)).toNat = (regField x).toNat * 2 ^ 8 + (regField y ++ n).toNat :=
    toNat_append_eq (regField x) (regField y ++ n)
  rw [h, h', toNat_append_eq (regField y) n, regField_toNat, regField_toNat]; ring

/-! ### The fields of an encoded word -/

section
variable (op n : BitVec 4) (x y : RegIdx) (kk : Byte) (nnn : BitVec 12)

@[simp] theorem opField_formNNN : opField (formNNN op nnn) = op := by
  apply BitVec.eq_of_toNat_eq
  have := nnn.isLt
  rw [opField_toNat, formNNN_toNat]; omega

@[simp] theorem nnnField_formNNN : nnnField (formNNN op nnn) = nnn := by
  apply BitVec.eq_of_toNat_eq
  have := nnn.isLt
  rw [nnnField_toNat, formNNN_toNat]; omega

@[simp] theorem kkField_formNNN : kkField (formNNN op nnn) = nnn.extractLsb' 0 8 := by
  apply BitVec.eq_of_toNat_eq
  rw [kkField_toNat, formNNN_toNat]
  simp [BitVec.extractLsb'_toNat]; omega

@[simp] theorem opField_formXKK : opField (formXKK op x kk) = op := by
  apply BitVec.eq_of_toNat_eq
  have := kk.isLt; have := x.isLt
  rw [opField_toNat, formXKK_toNat]; omega

@[simp] theorem xField_formXKK : xField (formXKK op x kk) = x := by
  apply Fin.ext
  have := kk.isLt; have := x.isLt
  rw [xField_val, formXKK_toNat]; omega

@[simp] theorem kkField_formXKK : kkField (formXKK op x kk) = kk := by
  apply BitVec.eq_of_toNat_eq
  have := kk.isLt; have := x.isLt
  rw [kkField_toNat, formXKK_toNat]; omega

@[simp] theorem opField_formXYN : opField (formXYN op x y n) = op := by
  apply BitVec.eq_of_toNat_eq
  have := n.isLt; have := x.isLt; have := y.isLt
  rw [opField_toNat, formXYN_toNat]; omega

@[simp] theorem xField_formXYN : xField (formXYN op x y n) = x := by
  apply Fin.ext
  have := n.isLt; have := x.isLt; have := y.isLt
  rw [xField_val, formXYN_toNat]; omega

@[simp] theorem yField_formXYN : yField (formXYN op x y n) = y := by
  apply Fin.ext
  have := n.isLt; have := x.isLt; have := y.isLt
  rw [yField_val, formXYN_toNat]; omega

@[simp] theorem nField_formXYN : nField (formXYN op x y n) = n := by
  apply BitVec.eq_of_toNat_eq
  have := n.isLt; have := x.isLt; have := y.isLt
  rw [nField_toNat, formXYN_toNat]; omega
end

/-! ### A word is made of its fields -/

section
variable (w : Word)

theorem formNNN_fields : formNNN (opField w) (nnnField w) = w := by
  apply BitVec.eq_of_toNat_eq
  rw [formNNN_toNat, opField_toNat, nnnField_toNat]; omega

theorem formXKK_fields : formXKK (opField w) (xField w) (kkField w) = w := by
  apply BitVec.eq_of_toNat_eq
  rw [formXKK_toNat, opField_toNat, xField_val, kkField_toNat]; omega

theorem formXYN_fields : formXYN (opField w) (xField w) (yField w) (nField w) = w := by
  apply BitVec.eq_of_toNat_eq
  rw [formXYN_toNat, opField_toNat, xField_val, yField_val, nField_toNat]; omega

/-- The bytes of a word, high byte first, make the word again (R37, R38). -/
@[simp] theorem wordOfBytes_bytes : wordOfBytes (w.extractLsb' 8 8) (w.extractLsb' 0 8) = w := by
  apply BitVec.eq_of_toNat_eq
  have := w.isLt
  rw [wordOfBytes_toNat]
  simp [BitVec.extractLsb'_toNat, Nat.shiftRight_eq_div_pow]; omega

/-- Decoding the bytes of a word, whatever follows them. -/
@[simp] theorem decodeBytes_bytesOfWord (p : Params) (rest : List Byte) :
    decodeBytes p (bytesOfWord w ++ rest) = (decode p w, rest) := by
  simp [bytesOfWord, decodeBytes]
end

/-! ### The decoder by op (R55) -/

section
variable (p : Params) {w : Word}

theorem decode_of_op0 (h : (opField w).toNat = 0x0) : decode p w = decodeOp0 p w := by simp [decode, h]
theorem decode_of_op5 (h : (opField w).toNat = 0x5) : decode p w = decodeOp5 p w := by simp [decode, h]
theorem decode_of_op9 (h : (opField w).toNat = 0x9) : decode p w = decodeOp9 p w := by simp [decode, h]
end

/-- An accepted instruction's own encoding has the word's op. -/
theorem opField_of_decode {p : Params} {w : Word} {i : Instr} (h : decode p w = .accept i) :
    opField w = opField (encode i) := by
  apply BitVec.eq_of_toNat_eq
  revert h
  simp only [decode]
  split <;> rename_i ho <;> intro h
  all_goals (try simp only [decodeOp0, decodeOp5, decodeOp8, decodeOp9, decodeOpE] at h)
  case h_16 =>
    have hF : (opField w).toNat = 0xF := by
      have := (opField w).isLt
      simp only [imp_false] at *; omega
    simp only [decodeOpF] at h
    split at h <;> cases h <;> simp [encode, hF]
  all_goals first
    | (cases h; simp [encode, ho])
    | (split at h <;> (try split at h) <;> cases h <;> first | (simp [encode, ho]; done) | (rw [ho]; rfl))

end Sys2Proof
end

