-- ==== Sys2Proof/Laws/Memory.lean ====
section
/-! SUPPORT. The laws of memory as data: a read after a write, and the canonical form is kept
(spec/20_memory.md R34, R46). -/

namespace Sys2Proof.Machine

variable (font : Vector Byte 80)

theorem Memory.read_erase (m : Memory) (a b : Nat) :
    Memory.read font (m.erase a) b = if b = a then Memory.background font a else Memory.read font m b := by
  induction m with
  | nil => by_cases hb : b = a <;> simp [Memory.erase, Memory.read, hb]
  | cons e m ih =>
    obtain ⟨k, u⟩ := e
    unfold Memory.erase at ih ⊢
    by_cases hk : k = a
    · subst hk
      by_cases hb : b = k <;> simp_all [Memory.read]
    · by_cases hb : b = k
      · have : b ≠ a := by omega
        simp [Memory.read, hk, hb]
      · simp [Memory.read, hk, hb, ih]

/-- Inserting an entry for an address that has none. -/
theorem Memory.read_insert {m : Memory} {a : Nat} (v : Byte) (h : ∀ c ∈ m, c.1 ≠ a) (b : Nat) :
    Memory.read font (m.insert a v) b = if b = a then v else Memory.read font m b := by
  induction m with
  | nil => rfl
  | cons e m ih =>
    obtain ⟨k, u⟩ := e
    have hk : k ≠ a := h (k, u) (by simp)
    have ih := ih fun c hc => h c (by simp [hc])
    unfold Memory.insert
    split
    · rfl
    · by_cases hb : b = k
      · have : b ≠ a := by omega
        simp [Memory.read, hb, hk]
      · simp [Memory.read, hb, ih]

theorem Memory.ne_of_mem_erase {m : Memory} {a : Nat} : ∀ c ∈ m.erase a, c.1 ≠ a := by
  intro c hc
  simpa using (List.mem_filter.mp hc).2

/-- A read after a write: the written address gives the value, every other address what it gave before. -/
@[simp] theorem Memory.read_write (m : Memory) (a b : Nat) (v : Byte) :
    Memory.read font (Memory.write font m a v) b = if b = a then v else Memory.read font m b := by
  unfold Memory.write
  split
  · next hv => rw [Memory.read_erase, hv]
  · rw [Memory.read_insert font v Memory.ne_of_mem_erase, Memory.read_erase]
    by_cases hb : b = a <;> simp [hb]

theorem Memory.mem_insert {m : Memory} {a : Nat} {v : Byte} {c : Host.Cell} (h : c ∈ m.insert a v) :
    c = (a, v) ∨ c ∈ m := by
  induction m with
  | nil => simpa [Memory.insert] using h
  | cons e m ih =>
    unfold Memory.insert at h
    split at h
    · simpa using h
    · rcases List.mem_cons.mp h with rfl | h
      · simp
      · rcases ih h with h | h <;> simp [h]

/-- Inserting keeps the entries in rising order. -/
theorem Memory.insert_rising {m : Memory} {a : Nat} (v : Byte) (hm : m.Pairwise (fun c d => c.1 < d.1))
    (h : ∀ c ∈ m, c.1 ≠ a) : (m.insert a v).Pairwise (fun c d => c.1 < d.1) := by
  induction m with
  | nil => simp [Memory.insert]
  | cons e m ih =>
    obtain ⟨k, u⟩ := e
    obtain ⟨hk, hm'⟩ := List.pairwise_cons.mp hm
    have hka : k ≠ a := h (k, u) (by simp)
    unfold Memory.insert
    split
    · next hlt =>
      refine List.pairwise_cons.mpr ⟨fun c hc => ?_, hm⟩
      rcases List.mem_cons.mp hc with rfl | hc
      · exact hlt
      · exact lt_trans hlt (hk c hc)
    · refine List.pairwise_cons.mpr ⟨fun c hc => ?_, ih hm' fun c hc => h c (by simp [hc])⟩
      rcases Memory.mem_insert hc with rfl | hc
      · show k < a; omega
      · exact hk c hc

/-- The empty memory is in canonical form. -/
@[simp] theorem Memory.wf_nil : Memory.wf font [] := by simp [Memory.wf]

/-- A write inside the address space keeps the canonical form. -/
theorem Memory.write_wf {m : Memory} {a : Nat} (v : Byte) (ha : a ≤ 0xFFF) (hm : Memory.wf font m) :
    Memory.wf font (Memory.write font m a v) := by
  have he : Memory.wf font (m.erase a) :=
    ⟨hm.1.filter _, fun c hc => hm.2 c (List.mem_filter.mp hc).1⟩
  unfold Memory.write
  split
  · exact he
  · next hv =>
    refine ⟨Memory.insert_rising v he.1 Memory.ne_of_mem_erase, fun c hc => ?_⟩
    rcases Memory.mem_insert hc with rfl | hc
    · exact ⟨ha, hv⟩
    · exact he.2 c hc

end Sys2Proof.Machine
end

