-- ==== Sys2Proof/Laws/State.lean ====
section
/-! SUPPORT. One lemma per field for each named update of State: what the update sets and what it leaves. -/

namespace Sys2Proof.Machine

/-! ### setV -/

section
variable (s : State) (x : RegIdx) (b : Byte)

@[simp] theorem State.setV_mem : (s.setV x b).mem = s.mem := rfl
@[simp] theorem State.setV_V : (s.setV x b).V = s.V.set x b := rfl
@[simp] theorem State.setV_I : (s.setV x b).I = s.I := rfl
@[simp] theorem State.setV_pc : (s.setV x b).pc = s.pc := rfl
@[simp] theorem State.setV_stack : (s.setV x b).stack = s.stack := rfl
@[simp] theorem State.setV_sp : (s.setV x b).sp = s.sp := rfl
@[simp] theorem State.setV_DT : (s.setV x b).DT = s.DT := rfl
@[simp] theorem State.setV_ST : (s.setV x b).ST = s.ST := rfl
@[simp] theorem State.setV_lastTick : (s.setV x b).lastTick = s.lastTick := rfl
@[simp] theorem State.setV_fb : (s.setV x b).fb = s.fb := rfl
@[simp] theorem State.setV_status : (s.setV x b).status = s.status := rfl
@[simp] theorem State.setV_changed : (s.setV x b).changed = s.changed := rfl
@[simp] theorem State.setV_lastLoad : (s.setV x b).lastLoad = s.lastLoad := rfl
@[simp] theorem State.setV_params : (s.setV x b).params = s.params := rfl
@[simp] theorem State.setV_input : (s.setV x b).input = s.input := rfl
@[simp] theorem State.setV_calls : (s.setV x b).calls = s.calls := rfl

end

/-! ### setByte -/

section
variable (s : State) (a : Nat) (b : Byte)

@[simp] theorem State.setByte_mem : (s.setByte a b).mem = Memory.write s.params.font s.mem a b := rfl
@[simp] theorem State.setByte_V : (s.setByte a b).V = s.V := rfl
@[simp] theorem State.setByte_I : (s.setByte a b).I = s.I := rfl
@[simp] theorem State.setByte_pc : (s.setByte a b).pc = s.pc := rfl
@[simp] theorem State.setByte_stack : (s.setByte a b).stack = s.stack := rfl
@[simp] theorem State.setByte_sp : (s.setByte a b).sp = s.sp := rfl
@[simp] theorem State.setByte_DT : (s.setByte a b).DT = s.DT := rfl
@[simp] theorem State.setByte_ST : (s.setByte a b).ST = s.ST := rfl
@[simp] theorem State.setByte_lastTick : (s.setByte a b).lastTick = s.lastTick := rfl
@[simp] theorem State.setByte_fb : (s.setByte a b).fb = s.fb := rfl
@[simp] theorem State.setByte_status : (s.setByte a b).status = s.status := rfl
@[simp] theorem State.setByte_changed : (s.setByte a b).changed = s.changed := rfl
@[simp] theorem State.setByte_lastLoad : (s.setByte a b).lastLoad = s.lastLoad := rfl
@[simp] theorem State.setByte_params : (s.setByte a b).params = s.params := rfl
@[simp] theorem State.setByte_input : (s.setByte a b).input = s.input := rfl
@[simp] theorem State.setByte_calls : (s.setByte a b).calls = s.calls := rfl

end

/-! ### takeFault -/

section
variable (s : State) (pc0 : Word) (r : Raise)

@[simp] theorem State.takeFault_mem : (s.takeFault pc0 r).mem = s.mem := rfl
@[simp] theorem State.takeFault_V : (s.takeFault pc0 r).V = s.V := rfl
@[simp] theorem State.takeFault_I : (s.takeFault pc0 r).I = s.I := rfl
@[simp] theorem State.takeFault_pc : (s.takeFault pc0 r).pc = pc0 := rfl
@[simp] theorem State.takeFault_stack : (s.takeFault pc0 r).stack = s.stack := rfl
@[simp] theorem State.takeFault_sp : (s.takeFault pc0 r).sp = s.sp := rfl
@[simp] theorem State.takeFault_DT : (s.takeFault pc0 r).DT = s.DT := rfl
@[simp] theorem State.takeFault_ST : (s.takeFault pc0 r).ST = s.ST := rfl
@[simp] theorem State.takeFault_lastTick : (s.takeFault pc0 r).lastTick = s.lastTick := rfl
@[simp] theorem State.takeFault_fb : (s.takeFault pc0 r).fb = s.fb := rfl
@[simp] theorem State.takeFault_status : (s.takeFault pc0 r).status = .faulted ⟨r.kind, pc0, r.value⟩ := rfl
@[simp] theorem State.takeFault_changed : (s.takeFault pc0 r).changed = false := rfl
@[simp] theorem State.takeFault_lastLoad : (s.takeFault pc0 r).lastLoad = s.lastLoad := rfl
@[simp] theorem State.takeFault_params : (s.takeFault pc0 r).params = s.params := rfl
@[simp] theorem State.takeFault_input : (s.takeFault pc0 r).input = s.input := rfl
@[simp] theorem State.takeFault_calls : (s.takeFault pc0 r).calls = s.calls := rfl

end

/-! ### beginCycle -/

section
variable (s : State) (input : CycleInput)

@[simp] theorem State.beginCycle_mem : (s.beginCycle input).mem = s.mem := rfl
@[simp] theorem State.beginCycle_V : (s.beginCycle input).V = s.V := rfl
@[simp] theorem State.beginCycle_I : (s.beginCycle input).I = s.I := rfl
@[simp] theorem State.beginCycle_pc : (s.beginCycle input).pc = s.pc := rfl
@[simp] theorem State.beginCycle_stack : (s.beginCycle input).stack = s.stack := rfl
@[simp] theorem State.beginCycle_sp : (s.beginCycle input).sp = s.sp := rfl
@[simp] theorem State.beginCycle_DT : (s.beginCycle input).DT = s.DT := rfl
@[simp] theorem State.beginCycle_ST : (s.beginCycle input).ST = s.ST := rfl
@[simp] theorem State.beginCycle_lastTick : (s.beginCycle input).lastTick = s.lastTick := rfl
@[simp] theorem State.beginCycle_fb : (s.beginCycle input).fb = s.fb := rfl
@[simp] theorem State.beginCycle_status : (s.beginCycle input).status = s.status := rfl
@[simp] theorem State.beginCycle_changed : (s.beginCycle input).changed = false := rfl
@[simp] theorem State.beginCycle_lastLoad : (s.beginCycle input).lastLoad = s.lastLoad := rfl
@[simp] theorem State.beginCycle_params : (s.beginCycle input).params = s.params := rfl
@[simp] theorem State.beginCycle_input : (s.beginCycle input).input = input := rfl
@[simp] theorem State.beginCycle_calls : (s.beginCycle input).calls = s.calls := rfl

end

/-! ### noCycle -/

section
variable (s : State) 

@[simp] theorem State.noCycle_mem : (s.noCycle).mem = s.mem := rfl
@[simp] theorem State.noCycle_V : (s.noCycle).V = s.V := rfl
@[simp] theorem State.noCycle_I : (s.noCycle).I = s.I := rfl
@[simp] theorem State.noCycle_pc : (s.noCycle).pc = s.pc := rfl
@[simp] theorem State.noCycle_stack : (s.noCycle).stack = s.stack := rfl
@[simp] theorem State.noCycle_sp : (s.noCycle).sp = s.sp := rfl
@[simp] theorem State.noCycle_DT : (s.noCycle).DT = s.DT := rfl
@[simp] theorem State.noCycle_ST : (s.noCycle).ST = s.ST := rfl
@[simp] theorem State.noCycle_lastTick : (s.noCycle).lastTick = s.lastTick := rfl
@[simp] theorem State.noCycle_fb : (s.noCycle).fb = s.fb := rfl
@[simp] theorem State.noCycle_status : (s.noCycle).status = s.status := rfl
@[simp] theorem State.noCycle_changed : (s.noCycle).changed = false := rfl
@[simp] theorem State.noCycle_lastLoad : (s.noCycle).lastLoad = s.lastLoad := rfl
@[simp] theorem State.noCycle_params : (s.noCycle).params = s.params := rfl
@[simp] theorem State.noCycle_input : (s.noCycle).input = s.input := rfl
@[simp] theorem State.noCycle_calls : (s.noCycle).calls = s.calls := rfl

end

/-! ### timerStep -/

section
variable (s : State) 

@[simp] theorem State.timerStep_mem : (s.timerStep).mem = s.mem := by
  unfold State.timerStep; split <;> rfl
@[simp] theorem State.timerStep_V : (s.timerStep).V = s.V := by
  unfold State.timerStep; split <;> rfl
@[simp] theorem State.timerStep_I : (s.timerStep).I = s.I := by
  unfold State.timerStep; split <;> rfl
@[simp] theorem State.timerStep_pc : (s.timerStep).pc = s.pc := by
  unfold State.timerStep; split <;> rfl
@[simp] theorem State.timerStep_stack : (s.timerStep).stack = s.stack := by
  unfold State.timerStep; split <;> rfl
@[simp] theorem State.timerStep_sp : (s.timerStep).sp = s.sp := by
  unfold State.timerStep; split <;> rfl
@[simp] theorem State.timerStep_DT : (s.timerStep).DT = if s.tickDue then decrement s.DT else s.DT := by
  unfold State.timerStep; split <;> rfl
@[simp] theorem State.timerStep_ST : (s.timerStep).ST = if s.tickDue then decrement s.ST else s.ST := by
  unfold State.timerStep; split <;> rfl
@[simp] theorem State.timerStep_lastTick : (s.timerStep).lastTick = if s.tickDue then s.input.now else s.lastTick := by
  unfold State.timerStep; split <;> rfl
@[simp] theorem State.timerStep_fb : (s.timerStep).fb = s.fb := by
  unfold State.timerStep; split <;> rfl
@[simp] theorem State.timerStep_status : (s.timerStep).status = s.status := by
  unfold State.timerStep; split <;> rfl
@[simp] theorem State.timerStep_changed : (s.timerStep).changed = s.changed := by
  unfold State.timerStep; split <;> rfl
@[simp] theorem State.timerStep_lastLoad : (s.timerStep).lastLoad = s.lastLoad := by
  unfold State.timerStep; split <;> rfl
@[simp] theorem State.timerStep_params : (s.timerStep).params = s.params := by
  unfold State.timerStep; split <;> rfl
@[simp] theorem State.timerStep_input : (s.timerStep).input = s.input := by
  unfold State.timerStep; split <;> rfl
@[simp] theorem State.timerStep_calls : (s.timerStep).calls = s.calls := by
  unfold State.timerStep; split <;> rfl

end

/-! ### Registers and bytes read back -/

@[simp] theorem State.getV_setV (s : State) (x k : RegIdx) (b : Byte) :
    (s.setV x b).getV k = if k = x then b else s.getV k := by
  by_cases h : k = x
  · simp [State.getV, State.setV, h]
  · have : x.val ≠ k.val := fun e => h (Fin.ext e.symm)
    simp [State.getV, State.setV, h, this]

@[simp] theorem State.byteAt_setV (s : State) (x : RegIdx) (b : Byte) (a : Nat) : (s.setV x b).byteAt a = s.byteAt a := rfl

@[simp] theorem State.getV_setByte (s : State) (a : Nat) (b : Byte) (k : RegIdx) : (s.setByte a b).getV k = s.getV k := rfl

/-- Reading a byte depends on memory and the font alone. -/
theorem State.byteAt_congr {s t : State} (hm : t.mem = s.mem) (hp : t.params = s.params) (a : Nat) :
    t.byteAt a = s.byteAt a := by
  simp [State.byteAt, hm, hp]

/-- A byte read after a byte written (R46). -/
@[simp] theorem State.byteAt_setByte (s : State) (a b : Nat) (v : Byte) :
    (s.setByte a v).byteAt b = if b = a then v else s.byteAt b := by
  simp [State.byteAt]

end Sys2Proof.Machine
end

