-- ==== Sys2Proof/Laws/Ops.lean ====
section
/-! SUPPORT. For each shared operation, everything it can do: when it raises and what, and the state it leaves. -/

namespace Sys2Proof.Machine

/-! ### The end of an instruction -/

@[simp] theorem complete_ok (s t : State) : complete s (.ok t) = .next t := rfl

@[simp] theorem complete_error (s : State) (r : Raise) :
    complete s (.error r) = .next (s.takeFault s.instrAddr r) := rfl

/-- An instruction always completes in a next state: what its statements left, or the fault taken. -/
theorem complete_cases (s : State) (e : Except Raise State) :
    (∃ t, e = .ok t ∧ complete s e = .next t) ∨
    (∃ r, e = .error r ∧ complete s e = .next (s.takeFault s.instrAddr r)) := by
  cases e with
  | ok t => exact .inl ⟨t, rfl, rfl⟩
  | error r => exact .inr ⟨r, rfl, rfl⟩

/-! ### Memory -/

theorem memRead_of_le (s : State) {a : Nat} (h : a ≤ 0xFFF) : memRead s a = .ok (s.byteAt a) := by
  simp [memRead, Nat.not_lt.mpr h]

theorem memRead_of_gt (s : State) {a : Nat} (h : 0xFFF < a) : memRead s a = .error ⟨.memoryOutOfRange, a⟩ := by
  simp [memRead, h]

theorem memWrite_of_le (s : State) {a : Nat} (v : Byte) (h : a ≤ 0xFFF) : memWrite s a v = .ok (s.setByte a v) := by
  simp [memWrite, Nat.not_lt.mpr h]

theorem memWrite_of_gt (s : State) {a : Nat} (v : Byte) (h : 0xFFF < a) :
    memWrite s a v = .error ⟨.memoryOutOfRange, a⟩ := by
  simp [memWrite, h]

/-- A fetch inside memory gives the two bytes, high byte first (R37). -/
theorem fetch16_of_lt (s : State) {a : Nat} (h : a < 0xFFF) :
    fetch16 s a = .ok (wordOfBytes (s.byteAt a) (s.byteAt (a + 1))) := by
  simp [fetch16, memRead_of_le s (show a ≤ 0xFFF by omega), memRead_of_le s (show a + 1 ≤ 0xFFF by omega), bind,
    Except.bind, pure, Except.pure]

/-- A fetch that reaches past memory raises for its first byte outside (R37). -/
theorem fetch16_of_ge (s : State) {a : Nat} (h : 0xFFF ≤ a) :
    fetch16 s a = .error ⟨.memoryOutOfRange, max a 0x1000⟩ := by
  rcases Nat.eq_or_lt_of_le h with h | h
  · subst h
    simp [fetch16, memRead_of_le s (show 0xFFF ≤ 0xFFF by omega), memRead_of_gt s (show 0xFFF < 0xFFF + 1 by omega),
      bind, Except.bind]
  · have : max a 0x1000 = a := by omega
    simp [fetch16, memRead_of_gt s h, bind, Except.bind, this]

/-- Consecutive reads inside memory give the bytes in ascending order (R39). -/
theorem readBytes_of_le (s : State) {a n : Nat} (h : n = 0 ∨ a + n ≤ 0x1000) :
    readBytes s a n = .ok ((List.range n).map fun k => s.byteAt (a + k)) := by
  induction n generalizing a with
  | zero => rfl
  | succ n ih =>
    have hn : a + (n + 1) ≤ 0x1000 := by omega
    have ih := ih (a := a + 1) (by omega)
    simp only [readBytes, memRead_of_le s (show a ≤ 0xFFF by omega), ih, bind, Except.bind, pure, Except.pure]
    rw [List.range_succ_eq_map]
    simp [Nat.add_assoc, Nat.add_comm 1]

/-- Consecutive reads that reach past memory raise for their first address outside (R35, R39). -/
theorem readBytes_of_gt (s : State) {a n : Nat} (hn : 0 < n) (h : 0x1000 < a + n) :
    readBytes s a n = .error ⟨.memoryOutOfRange, max a 0x1000⟩ := by
  induction n generalizing a with
  | zero => omega
  | succ n ih =>
    by_cases ha : a ≤ 0xFFF
    · have ih := ih (a := a + 1) (by omega) (by omega)
      have : max (a + 1) 0x1000 = max a 0x1000 := by omega
      simp only [readBytes, memRead_of_le s ha, ih, bind, Except.bind, this]
    · have : max a 0x1000 = a := by omega
      simp only [readBytes, memRead_of_gt s (show 0xFFF < a by omega), bind, Except.bind, this]

/-- What consecutive writes inside memory leave: memory alone changes, each written address holds its byte and every other
address what it held, and the canonical form is kept (R36, R39). -/
theorem writeBytes_of_le (s : State) (bs : List Byte) {a : Nat} (h : bs = [] ∨ a + bs.length ≤ 0x1000) :
    ∃ t, writeBytes s a bs = .ok t ∧ t = { s with mem := t.mem } ∧
      (∀ b, t.byteAt b = if hb : a ≤ b ∧ b - a < bs.length then bs[b - a] else s.byteAt b) ∧
      (Memory.wf s.params.font s.mem → Memory.wf s.params.font t.mem) := by
  induction bs generalizing s a with
  | nil => exact ⟨s, rfl, rfl, fun b => by simp, id⟩
  | cons v bs ih =>
    have hl : a + (bs.length + 1) ≤ 0x1000 := by simpa using h
    have ha : a ≤ 0xFFF := by omega
    obtain ⟨t, ht, hrest, hbytes, hwf⟩ := ih (s.setByte a v) (a := a + 1) (by right; omega)
    refine ⟨t, ?_, ?_, fun b => ?_, fun hw => ?_⟩
    · simpa [writeBytes, memWrite_of_le s v ha, bind, Except.bind] using ht
    · rw [hrest]; rfl
    · rw [hbytes b]
      rcases Nat.lt_trichotomy b a with hlt | rfl | hgt
      · rw [dif_neg (by omega), dif_neg (by omega), State.byteAt_setByte, if_neg (by omega)]
      · rw [dif_neg (by omega), dif_pos (by simp)]
        simp
      · by_cases hin : b - a < bs.length + 1
        · obtain ⟨d, rfl⟩ : ∃ d, b = a + (d + 1) := ⟨b - a - 1, by omega⟩
          have e1 : a + (d + 1) - (a + 1) = d := by omega
          have e2 : a + (d + 1) - a = d + 1 := by omega
          rw [dif_pos (by omega), dif_pos (by simp; omega)]
          simp [e1, e2]
        · rw [dif_neg (by omega), dif_neg (by simp; omega), State.byteAt_setByte, if_neg (by omega)]
    · exact hwf (Memory.write_wf _ v ha hw)

theorem checkLast_of_le {a : Nat} (h : a ≤ 0xFFF) : checkLast a = .ok () := by
  simp [checkLast, Nat.not_lt.mpr h]

theorem checkLast_of_gt {a : Nat} (h : 0xFFF < a) : checkLast a = .error ⟨.memoryOutOfRange, 0x1000⟩ := by
  simp [checkLast, h]

/-! ### pc and I -/

theorem writePc_of_le (s : State) {t : Nat} (h : t ≤ 0xFFF) :
    writePc s t = .ok { s with pc := BitVec.ofNat 16 t } := by
  simp [writePc, Nat.not_lt.mpr h]

theorem writePc_of_gt (s : State) {t : Nat} (h : 0xFFF < t) : writePc s t = .error ⟨.pcOutOfRange, t⟩ := by
  simp [writePc, h]

theorem writeI_of_le (s : State) {t : Nat} (h : t ≤ 0xFFF) :
    writeI s t = .ok { s with I := BitVec.ofNat 16 t } := by
  simp [writeI, Nat.not_lt.mpr h]

theorem writeI_of_gt (s : State) {t : Nat} (h : 0xFFF < t) : writeI s t = .error ⟨.indexOutOfRange, t⟩ := by
  simp [writeI, h]

/-- A skip inside memory is an addition of 2 to pc (R68). -/
theorem skip_of_le (s : State) (h : s.pc.toNat + 2 ≤ 0xFFF) : skip s = .ok { s with pc := s.pc + 2 } := by
  unfold skip
  rw [writePc_of_le s h]
  have : BitVec.ofNat 16 (s.pc.toNat + 2) = s.pc + 2 := by
    apply BitVec.eq_of_toNat_eq
    simp [BitVec.toNat_add]
  rw [this]

theorem skip_of_gt (s : State) (h : 0xFFF < s.pc.toNat + 2) :
    skip s = .error ⟨.pcOutOfRange, s.pc.toNat + 2⟩ := writePc_of_gt s h

@[simp] theorem skipIf_true (s : State) : skipIf s true = skip s := rfl
@[simp] theorem skipIf_false (s : State) : skipIf s false = .ok s := rfl

/-! ### The call stack -/

theorem push_of_lt (s : State) (a : Word) (h : s.sp.val < 16) :
    push s a = .ok { s with stack := s.stack.set s.sp.val a, sp := ⟨s.sp.val + 1, by omega⟩ } := by
  simp [push, h]

theorem push_of_full (s : State) (a : Word) (h : s.sp.val = 16) : push s a = .error ⟨.stackOverflow, 16⟩ := by
  simp [push, h]

theorem pop_of_pos (s : State) (h : 0 < s.sp.val) :
    pop s = .ok (s.stack[s.sp.val - 1], { s with sp := ⟨s.sp.val - 1, by omega⟩ }) := by
  simp [pop, h]

theorem pop_of_empty (s : State) (h : s.sp.val = 0) : pop s = .error ⟨.stackUnderflow, 0⟩ := by
  simp [pop, h]

end Sys2Proof.Machine
end

