-- ==== Sys2Proof/Laws/Operands.lean ====
section
/-! SUPPORT. The operand forms and the flag writes: what each gives. -/

namespace Sys2Proof.Machine

/-! ### Registers -/

theorem State.V_eq_getV (s : State) (k : RegIdx) : s.V[k] = s.getV k := rfl

@[simp] theorem State.regsUpTo_length (s : State) (x : RegIdx) : (s.regsUpTo x).length = x.val + 1 := by
  have := x.isLt
  simp [State.regsUpTo]

/-- The k-th byte Fx55 stores is V[k] (R98). -/
theorem State.regsUpTo_getElem (s : State) (x : RegIdx) {k : Nat} (h : k < (s.regsUpTo x).length) :
    (s.regsUpTo x)[k] = s.getV ⟨k, by have := x.isLt; simp at h; omega⟩ := by
  simp [State.regsUpTo, State.getV]

/-- Loading registers from `k` on changes V alone, and register `i` gets the byte at its place in the list (R99). -/
theorem State.loadRegs_spec (s : State) (k : Nat) (bs : List Byte) :
    s.loadRegs k bs = { s with V := (s.loadRegs k bs).V } ∧
      ∀ i : RegIdx, (s.loadRegs k bs).getV i =
        if h : k ≤ i.val ∧ i.val - k < bs.length then bs[i.val - k] else s.getV i := by
  induction bs generalizing s k with
  | nil => exact ⟨rfl, fun i => by simp [State.loadRegs]⟩
  | cons b bs ih =>
    obtain ⟨h1, h2⟩ := ih { s with V := s.V.setIfInBounds k b } (k + 1)
    refine ⟨?_, fun i => ?_⟩
    · show State.loadRegs _ _ _ = _
      rw [State.loadRegs]
      exact h1
    · rw [State.loadRegs, h2 i]
      rcases Nat.lt_trichotomy i.val k with hlt | heq | hgt
      · rw [dif_neg (by omega), dif_neg (by omega)]
        simp [State.getV, show k ≠ i.val by omega]
      · rw [dif_neg (by omega), dif_pos (by simp; omega)]
        simp [State.getV, heq]
      · by_cases hin : i.val - k < bs.length + 1
        · have e : i.val - k = (i.val - (k + 1)) + 1 := by omega
          rw [dif_pos (by omega), dif_pos (by simp; omega)]
          simp only [e, List.getElem_cons_succ]
        · rw [dif_neg (by omega), dif_neg (by simp; omega)]
          simp [State.getV, show k ≠ i.val by omega]

/-! ### Immediates, digits, glyphs -/

@[simp] theorem zext16_toNat (nnn : BitVec 12) : (zext16 nnn).toNat = nnn.toNat := by
  have := nnn.isLt
  simp [zext16, BitVec.toNat_setWidth]; omega

/-- The three decimal digits as numbers (R97). -/
theorem decimalDigits_toNat (v : Byte) :
    (decimalDigits v).map BitVec.toNat = [v.toNat / 100, v.toNat / 10 % 10, v.toNat % 10] := by
  simp [decimalDigits, BitVec.toNat_udiv, BitVec.toNat_umod]

/-- The glyph address as a number (R96): it never leaves memory. -/
theorem glyphAddr_toNat (p : Params) (v : Byte) :
    (glyphAddr p v).toNat = 0x050 + 5 * (if p.fx29MaskDigit then v.toNat % 16 else v.toNat) := by
  have hv := v.isLt
  have hm : (v &&& 0xF).toNat = v.toNat % 16 := by
    rw [BitVec.toNat_and]
    exact Nat.and_two_pow_sub_one_eq_mod v.toNat 4
  unfold glyphAddr
  by_cases h : p.fx29MaskDigit
  · simp only [h, if_true, BitVec.toNat_ofNat, hm, Config.fontBase, Config.glyphSize]; omega
  · simp only [h, BitVec.toNat_ofNat, Config.fontBase, Config.glyphSize]; simp; omega

theorem glyphAddr_le (p : Params) (v : Byte) : (glyphAddr p v).toNat ≤ 0xFFF := by
  rw [glyphAddr_toNat]
  have := v.isLt
  split <;> omega

/-! ### Keys -/

theorem keyOf_val (v : Byte) : (keyOf v).val = v.toNat % 16 := by
  simp [keyOf]

@[simp] theorem keyByte_toNat (k : KeyIdx) : (keyByte k).toNat = k.val := by
  have := k.isLt
  simp [keyByte]; omega

/-- No key is picked exactly when none is held. -/
theorem State.pickKey_eq_none (s : State) : s.pickKey = none ↔ ∀ k, s.keyHeld k = false := by
  unfold State.pickKey
  split
  · next h => simp only [reduceCtorEq, false_iff]; intro hall; simp [hall] at h
  · simp

/-- A picked key is held. -/
theorem State.keyHeld_of_pickKey {s : State} {k : KeyIdx} (h : s.pickKey = some k) : s.keyHeld k = true := by
  unfold State.pickKey at h
  split at h
  · next hd => rw [← Option.some.inj h]; exact hd
  · simpa using List.find?_some h

/-! ### Flags -/

theorem flagByte_toNat (c : Bool) : (flagByte c).toNat = if c then 1 else 0 := by cases c <;> rfl

theorem lowBitFlag_toNat (a : Byte) : (lowBitFlag a).toNat = a.toNat % 2 := by
  simp [lowBitFlag, BitVec.toNat_and]

theorem highBitFlag_toNat (a : Byte) : (highBitFlag a).toNat = a.toNat / 128 := by
  have := a.isLt
  simp [highBitFlag, BitVec.toNat_and, BitVec.toNat_ushiftRight, Nat.shiftRight_eq_div_pow]
  omega

/-- Flag and result change V alone. -/
theorem State.writeFlagAndResult_frame (s : State) (x y : RegIdx) (f g : Byte → Byte → Byte) :
    s.writeFlagAndResult x y f g = { s with V := (s.writeFlagAndResult x y f g).V } := by
  unfold State.writeFlagAndResult
  split <;> rfl

theorem State.writeCarryAndSum_frame (s : State) (x y : RegIdx) :
    s.writeCarryAndSum x y = { s with V := (s.writeCarryAndSum x y).V } := by
  unfold State.writeCarryAndSum
  simp only
  split <;> rfl

/-- Every register after the two statements in sequence (R79): the result is computed from the registers with the flag
already in VF. -/
theorem State.writeFlagAndResult_sequential (s : State) (x y : RegIdx) (f g : Byte → Byte → Byte)
    (h : s.params.aluVfOrder = .sequential) (k : RegIdx) :
    (s.writeFlagAndResult x y f g).getV k =
      let flag := f (s.getV x) (s.getV y)
      if k = x then g (if x = VF then flag else s.getV x) (if y = VF then flag else s.getV y)
      else if k = VF then flag else s.getV k := by
  simp [State.writeFlagAndResult, h]

/-- Every register where the operands are read first (R79): the flag is written last. -/
theorem State.writeFlagAndResult_resultThenFlag (s : State) (x y : RegIdx) (f g : Byte → Byte → Byte)
    (h : s.params.aluVfOrder = .resultThenFlag) (k : RegIdx) :
    (s.writeFlagAndResult x y f g).getV k =
      if k = VF then f (s.getV x) (s.getV y) else if k = x then g (s.getV x) (s.getV y) else s.getV k := by
  simp [State.writeFlagAndResult, h]

/-- Every register after 8xy4 (R86): only which of the two writes is last depends on the order. -/
theorem State.writeCarryAndSum_getV (s : State) (x y : RegIdx) (k : RegIdx) :
    (s.writeCarryAndSum x y).getV k =
      match s.params.aluVfOrder with
      | .sequential =>
        if k = x then s.getV x + s.getV y else if k = VF then carryFlag (s.getV x) (s.getV y) else s.getV k
      | .resultThenFlag =>
        if k = VF then carryFlag (s.getV x) (s.getV y) else if k = x then s.getV x + s.getV y else s.getV k := by
  unfold State.writeCarryAndSum
  cases s.params.aluVfOrder <;> simp

end Sys2Proof.Machine
end

