-- ==== Sys2Proof/Laws/Cycle.lean ====
section
/-! SUPPORT. The parts of a cycle: the timer step in the words of spec/60_exceptions.md R115, the fetch and the advance
(30_encoding.md R62, R63), and the placing of a program image (70_reset_and_hazards.md R127). -/

namespace Sys2Proof.Machine

/-! ### The timer step -/

/-- When a timer step is due, in rational seconds (R115). -/
theorem State.tickDue_iff (s : State) : s.tickDue = true ↔
    s.input.now - s.lastTick > Config.tickPeriod ∨
      (s.input.now - s.lastTick = Config.tickPeriod ∧ s.input.tickAtBoundary = true) := by
  have hb : (0 : ℚ) < s.input.now.den := by exact_mod_cast s.input.now.den_pos
  have hd : (0 : ℚ) < s.lastTick.den := by exact_mod_cast s.lastTick.den_pos
  have key : s.input.now - s.lastTick =
      ((s.input.now.num * s.lastTick.den - s.lastTick.num * s.input.now.den : ℤ) : ℚ) /
        (s.input.now.den * s.lastTick.den) := by
    conv_lhs => rw [← Rat.num_div_den s.input.now, ← Rat.num_div_den s.lastTick]
    field_simp
    push_cast
    ring
  have hp := mul_pos hb hd
  simp only [State.tickDue, Bool.or_eq_true, decide_eq_true_eq, Bool.and_eq_true, key, Config.tickPeriod]
  rw [gt_iff_lt, div_lt_div_iff₀ (by norm_num) hp, div_eq_div_iff hp.ne' (by norm_num)]
  refine or_congr ?_ (and_congr ?_ Iff.rfl)
  · rw [← @Int.cast_lt ℚ]; push_cast; constructor <;> intro h <;> linarith
  · rw [← @Int.cast_inj ℚ]; push_cast; constructor <;> intro h <;> linarith

theorem decrement_toNat (b : Byte) : (decrement b).toNat = b.toNat - 1 := by
  unfold decrement
  split
  · next h =>
    have : 0 < b.toNat := by simpa [BitVec.lt_def] using h
    rw [BitVec.toNat_sub_of_le (by simp [BitVec.le_def]; omega)]; rfl
  · next h =>
    have : ¬ 0 < b.toNat := by simpa [BitVec.lt_def] using h
    omega

/-- A cycle that faulted has no timer step (R108, R115). -/
theorem State.endCycle_faulted {s : State} {r : FaultRecord} (h : s.status = .faulted r) : s.endCycle = s := by
  simp [State.endCycle, h]

theorem State.endCycle_of_not_faulted {s : State} (h : ∀ r, s.status ≠ .faulted r) : s.endCycle = s.timerStep := by
  unfold State.endCycle
  split
  · next r hr => exact absurd hr (h r)
  all_goals rfl

/-- The end of a cycle is a timer step or nothing. -/
theorem State.endCycle_cases (s : State) : s.endCycle = s ∨ s.endCycle = s.timerStep := by
  unfold State.endCycle
  split <;> simp

/-! ### Fetch and advance -/

/-- Up to 0xFFD the fetch and the advance succeed (R62, R63). -/
theorem fetchAndAdvance_of_le (s : State) (h : s.pc.toNat ≤ 0xFFD) :
    fetchAndAdvance s =
      .ok (decode s.params (wordOfBytes (s.byteAt s.pc.toNat) (s.byteAt (s.pc.toNat + 1))), { s with pc := s.pc + 2 }) := by
  have hs : writePc s (s.pc.toNat + 2) = .ok { s with pc := s.pc + 2 } := skip_of_le s (by omega)
  simp [fetchAndAdvance, fetch16_of_lt s (show s.pc.toNat < 0xFFF by omega), hs, bind, Except.bind, pure, Except.pure]

/-- At 0xFFE the advance raises, whatever the instruction is (R63). -/
theorem fetchAndAdvance_at_FFE (s : State) (h : s.pc.toNat = 0xFFE) :
    fetchAndAdvance s = .error ⟨.pcOutOfRange, 0x1000⟩ := by
  have hs : writePc s (s.pc.toNat + 2) = .error ⟨.pcOutOfRange, 0x1000⟩ := by
    rw [h]; exact writePc_of_gt s (by omega)
  rw [fetchAndAdvance, fetch16_of_lt s (show s.pc.toNat < 0xFFF by omega)]
  simp only [bind, Except.bind, hs]

/-- From 0xFFF on the fetch raises (R37). -/
theorem fetchAndAdvance_of_ge (s : State) (h : 0xFFF ≤ s.pc.toNat) :
    fetchAndAdvance s = .error ⟨.memoryOutOfRange, max s.pc.toNat 0x1000⟩ := by
  simp [fetchAndAdvance, fetch16_of_ge s h, bind, Except.bind]

/-! ### Placing bytes (R127) -/

/-- Placing bytes changes memory alone: each address of the image holds its byte, every other what it held; inside the
address space the canonical form is kept. -/
theorem State.placeBytes_spec (s : State) (a : Nat) (bs : List Byte) :
    s.placeBytes a bs = { s with mem := (s.placeBytes a bs).mem } ∧
      (∀ b, (s.placeBytes a bs).byteAt b = if h : a ≤ b ∧ b - a < bs.length then bs[b - a] else s.byteAt b) ∧
      (a + bs.length ≤ 0x1000 → Memory.wf s.params.font s.mem → Memory.wf s.params.font (s.placeBytes a bs).mem) := by
  induction bs generalizing s a with
  | nil => exact ⟨rfl, fun b => by simp [State.placeBytes], fun _ h => h⟩
  | cons v bs ih =>
    obtain ⟨hrest, hbytes, hwf⟩ := ih (s.setByte a v) (a + 1)
    rw [State.placeBytes]
    refine ⟨hrest, fun b => ?_, fun hl hw => ?_⟩
    · rw [hbytes b]
      rcases Nat.lt_trichotomy b a with hlt | rfl | hgt
      · rw [dif_neg (by omega), dif_neg (by omega), State.byteAt_setByte, if_neg (by omega)]
      · rw [dif_neg (by omega), dif_pos (by simp)]
        simp
      · by_cases hin : b - a < bs.length + 1
        · obtain ⟨d, rfl⟩ : ∃ d, b = a + (d + 1) := ⟨b - a - 1, by omega⟩
          have e1 : a + (d + 1) - (a + 1) = d := by omega
          have e2 : a + (d + 1) - a = d + 1 := by omega
          rw [dif_pos (by omega), dif_pos (by simp; omega)]
          simp [e1, e2]
        · rw [dif_neg (by omega), dif_neg (by simp; omega), State.byteAt_setByte, if_neg (by omega)]
    · simp only [List.length_cons] at hl
      exact hwf (by omega) (Memory.write_wf _ v (by omega) hw)

end Sys2Proof.Machine
end

