-- ==== Sys2Proof/Laws/Display.lean ====
section
/-! SUPPORT. Drawing: one pixel written and read, and what the loop of spec/40_display.md R66 does as a whole: every pixel
is the old one exclusive-or the sprite bit that lands on it, and each sprite bit lands on a pixel of its own (R67). -/

namespace Sys2Proof.Machine

@[simp] theorem Framebuffer.pixel_setPixel (fb : Framebuffer) (r r' : Fin 32) (c c' : Fin 64) (b : Bool) :
    (Framebuffer.setPixel fb r c b).pixel r' c' = if r' = r ∧ c' = c then b else Framebuffer.pixel fb r' c' := by
  unfold Framebuffer.pixel Framebuffer.setPixel
  by_cases hr : r' = r
  · subst hr
    by_cases hc : c' = c
    · subst hc; simp
    · have : c.val ≠ c'.val := fun e => hc (Fin.ext e.symm)
      simp [hc, this]
  · have : r.val ≠ r'.val := fun e => hr (Fin.ext e.symm)
    simp [hr, this]

@[simp] theorem rowMod_val (r : Nat) : (rowMod r).val = r % 32 := rfl

@[simp] theorem colMod_val (c : Nat) : (colMod c).val = c % 64 := rfl

/-- The sprite bit that lands on pixel (r, c) when a sprite is drawn with its top-left corner in column `cx` and row `cy`,
and 0 where none lands there (R64): sprite row and column are the distances from (cy, cx) on the torus. -/
def spriteAt (cx cy : Nat) (bytes : List Byte) (r : Fin 32) (c : Fin 64) : Bool :=
  let i := (r.val + 32 - cy % 32) % 32
  let j := (c.val + 64 - cx % 64) % 64
  decide (j < 8) && spriteBit (bytes.getD i 0) j

/-- One sprite row, its `k` last columns: the pixels of row `cy` mod 32 in those columns, and what the two local bits
gather. -/
theorem Drawing.row_spec (d : Drawing) (b : Byte) (cx cy k : Nat) (hk : k ≤ 8) :
    (∀ r c, (d.row b cx cy k).fb.pixel r c =
      (d.fb.pixel r c ^^ (decide (r.val = cy % 32) && (decide (8 - k ≤ (c.val + 64 - cx % 64) % 64) &&
        decide ((c.val + 64 - cx % 64) % 64 < 8) && spriteBit b ((c.val + 64 - cx % 64) % 64))))) ∧
    ((d.row b cx cy k).collision = true ↔ d.collision = true ∨ ∃ j : Nat, 8 - k ≤ j ∧ j < 8 ∧ spriteBit b j = true ∧
      d.fb.pixel (rowMod cy) (colMod (cx + j)) = true) ∧
    ((d.row b cx cy k).flipped = true ↔ d.flipped = true ∨ ∃ j : Nat, 8 - k ≤ j ∧ j < 8 ∧ spriteBit b j = true) := by
  induction k generalizing d with
  | zero =>
    refine ⟨fun r c => ?_, ?_, ?_⟩
    · have : ¬ ((8 - 0 ≤ (c.val + 64 - cx % 64) % 64) ∧ ((c.val + 64 - cx % 64) % 64 < 8)) := by omega
      rcases not_and_or.mp this with h | h <;> simp [Drawing.row, h]
    · simp only [Drawing.row]; constructor
      · exact .inl
      · rintro (h | ⟨j, h1, h2, -⟩); exacts [h, by omega]
    · simp only [Drawing.row]; constructor
      · exact .inl
      · rintro (h | ⟨j, h1, h2, -⟩); exacts [h, by omega]
  | succ k ih =>
    obtain ⟨hp, hc, hf⟩ := ih (d.plot (spriteBit b (7 - k)) (rowMod cy) (colMod (cx + (7 - k)))) (by omega)
    have hcol : ∀ c : Fin 64, c = colMod (cx + (7 - k)) ↔ (c.val + 64 - cx % 64) % 64 = 7 - k := by
      intro c; rw [Fin.ext_iff, colMod_val]; have := c.isLt; omega
    have hrow : ∀ r : Fin 32, r = rowMod cy ↔ r.val = cy % 32 := by
      intro r; rw [Fin.ext_iff, rowMod_val]
    refine ⟨fun r c => ?_, ?_, ?_⟩
    · rw [Drawing.row, hp r c]
      simp only [Drawing.plot, Framebuffer.pixel_setPixel, hcol, hrow]
      by_cases hr : r.val = cy % 32
      · by_cases hj : (c.val + 64 - cx % 64) % 64 = 7 - k
        · have hrr := (hrow r).mpr hr
          have hcc := (hcol c).mpr hj
          rw [← hrr, ← hcc]
          simp [hr, hj, show ¬ (8 - k ≤ 7 - k) by omega, show 7 - k < 8 by omega]
        · have : (8 - k ≤ (c.val + 64 - cx % 64) % 64) ↔ (8 - (k + 1) ≤ (c.val + 64 - cx % 64) % 64) := by omega
          simp [hr, hj, this]
      · simp [hr]
    · rw [Drawing.row, hc]
      have hpix : ∀ j, 8 - k ≤ j → j < 8 →
          (d.plot (spriteBit b (7 - k)) (rowMod cy) (colMod (cx + (7 - k)))).fb.pixel (rowMod cy)
            (colMod (cx + j)) = d.fb.pixel (rowMod cy) (colMod (cx + j)) := by
        intro j h1 h2
        have hne : ¬ (colMod (cx + j) = colMod (cx + (7 - k))) := by
          rw [Fin.ext_iff, colMod_val, colMod_val]; omega
        simp [Drawing.plot, hne]
      constructor
      · rintro (h | ⟨j, h1, h2, h3, h4⟩)
        · simp only [Drawing.plot, Bool.or_eq_true, Bool.and_eq_true] at h
          rcases h with h | ⟨ho, hb⟩
          · exact .inl h
          · exact .inr ⟨7 - k, by omega, by omega, hb, ho⟩
        · exact .inr ⟨j, by omega, h2, h3, by rw [← hpix j h1 h2]; exact h4⟩
      · rintro (h | ⟨j, h1, h2, h3, h4⟩)
        · exact .inl (by simp [Drawing.plot, h])
        · by_cases hj : j = 7 - k
          · subst hj; exact .inl (by simp [Drawing.plot, h3, h4])
          · exact .inr ⟨j, by omega, h2, h3, by rw [hpix j (by omega) h2]; exact h4⟩
    · rw [Drawing.row, hf]
      constructor
      · rintro (h | ⟨j, h1, h2, h3⟩)
        · simp only [Drawing.plot, Bool.or_eq_true] at h
          rcases h with h | hb
          · exact .inl h
          · exact .inr ⟨7 - k, by omega, by omega, hb⟩
        · exact .inr ⟨j, by omega, h2, h3⟩
      · rintro (h | ⟨j, h1, h2, h3⟩)
        · exact .inl (by simp [Drawing.plot, h])
        · by_cases hj : j = 7 - k
          · subst hj; exact .inl (by simp [Drawing.plot, h3])
          · exact .inr ⟨j, by omega, h2, h3⟩

/-- A zero byte has no sprite pixel. -/
@[simp] theorem spriteBit_zero (j : Nat) : spriteBit 0#8 j = false := by simp [spriteBit]

/-- The whole loop (R66, R67): at most 32 rows, so that no pixel is met twice. -/
theorem Drawing.rows_spec (d : Drawing) (cx cy : Nat) (bytes : List Byte) (hn : bytes.length ≤ 32) :
    (∀ r c, (d.rows cx cy bytes).fb.pixel r c = (d.fb.pixel r c ^^ spriteAt cx cy bytes r c)) ∧
    ((d.rows cx cy bytes).collision = true ↔ d.collision = true ∨ ∃ i j : Nat, i < bytes.length ∧ j < 8 ∧
      spriteBit (bytes.getD i 0) j = true ∧ d.fb.pixel (rowMod (cy + i)) (colMod (cx + j)) = true) ∧
    ((d.rows cx cy bytes).flipped = true ↔ d.flipped = true ∨ ∃ i j : Nat, i < bytes.length ∧ j < 8 ∧
      spriteBit (bytes.getD i 0) j = true) := by
  induction bytes generalizing d cy with
  | nil => simp [Drawing.rows, spriteAt, spriteBit_zero]
  | cons b bs ih =>
    simp only [List.length_cons] at hn
    obtain ⟨hp, hc, hf⟩ := ih (d.row b cx cy 8) (cy + 1) (by omega)
    obtain ⟨rp, rc, rf⟩ := d.row_spec b cx cy 8 le_rfl
    refine ⟨fun r c => ?_, ?_, ?_⟩
    · rw [Drawing.rows, hp r c, rp r c, Bool.xor_assoc]
      congr 1
      simp only [spriteAt, Nat.sub_self, Nat.zero_le, decide_true, Bool.true_and]
      have hr32 := r.isLt
      by_cases hr : r.val = cy % 32
      · have e1 : (r.val + 32 - cy % 32) % 32 = 0 := by omega
        have e2 : (r.val + 32 - (cy + 1) % 32) % 32 = 31 := by omega
        have : bs.getD 31 0 = 0 := by simp [List.getD_eq_getElem?_getD, List.getElem?_eq_none (show bs.length ≤ 31 by omega)]
        simp [hr] at *
        simp [e2, this]
      · have e : (r.val + 32 - cy % 32) % 32 = (r.val + 32 - (cy + 1) % 32) % 32 + 1 := by omega
        simp [hr, e]
    · have later : ∀ i c, i < bs.length → (d.row b cx cy 8).fb.pixel (rowMod (cy + 1 + i)) c =
          d.fb.pixel (rowMod (cy + (i + 1))) c := by
        intro i c hi
        have hne : ¬ ((rowMod (cy + 1 + i)).val = cy % 32) := by simp only [rowMod_val]; omega
        rw [rp, decide_eq_false hne, Bool.false_and, Bool.xor_false, show cy + (i + 1) = cy + 1 + i by omega]
      rw [Drawing.rows, hc, rc]
      constructor
      · rintro ((h | ⟨j, -, h2, h3, h4⟩) | ⟨i, j, hi, hj, h3, h4⟩)
        · exact .inl h
        · exact .inr ⟨0, j, by simp, h2, by simpa using h3, by simpa using h4⟩
        · refine .inr ⟨i + 1, j, by simpa using hi, hj, by simpa using h3, ?_⟩
          rw [← later i _ hi]; exact h4
      · rintro (h | ⟨i, j, hi, hj, h3, h4⟩)
        · exact .inl (.inl h)
        · cases i with
          | zero => exact .inl (.inr ⟨j, by omega, hj, by simpa using h3, by simpa using h4⟩)
          | succ i =>
            simp only [List.length_cons, Nat.add_lt_add_iff_right] at hi
            refine .inr ⟨i, j, hi, hj, by simpa using h3, ?_⟩
            rw [later i _ hi]; exact h4
    · rw [Drawing.rows, hf, rf]
      constructor
      · rintro ((h | ⟨j, -, h2, h3⟩) | ⟨i, j, hi, hj, h3⟩)
        · exact .inl h
        · exact .inr ⟨0, j, by simp, h2, by simpa using h3⟩
        · exact .inr ⟨i + 1, j, by simpa using hi, hj, by simpa using h3⟩
      · rintro (h | ⟨i, j, hi, hj, h3⟩)
        · exact .inl (.inl h)
        · cases i with
          | zero => exact .inl (.inr ⟨j, by omega, hj, by simpa using h3⟩)
          | succ i => exact .inr ⟨i, j, by simpa using hi, hj, by simpa using h3⟩

end Sys2Proof.Machine
end

