-- ==== Sys2Proof/Laws/PerInstr.lean ====
section
/-! SUPPORT. Per instruction: the encoder's word has the bits that the instruction's row of spec/opcode_table.json fixes
(its match under its mask). -/

namespace Sys2Proof.Laws.TableRow

/-- The match and the mask of the instruction's row in spec/opcode_table.json. -/
def row : Instr → Word × Word
  | .cls => (0x00E0, 0xFFFF)
  | .ret => (0x00EE, 0xFFFF)
  | .sys _ => (0x0000, 0xF000)
  | .jp _ => (0x1000, 0xF000)
  | .call _ => (0x2000, 0xF000)
  | .seVB _ _ => (0x3000, 0xF000)
  | .sneVB _ _ => (0x4000, 0xF000)
  | .seVV _ _ => (0x5000, 0xF00F)
  | .ldVB _ _ => (0x6000, 0xF000)
  | .addVB _ _ => (0x7000, 0xF000)
  | .ldVV _ _ => (0x8000, 0xF00F)
  | .orVV _ _ => (0x8001, 0xF00F)
  | .andVV _ _ => (0x8002, 0xF00F)
  | .xorVV _ _ => (0x8003, 0xF00F)
  | .addVV _ _ => (0x8004, 0xF00F)
  | .sub _ _ => (0x8005, 0xF00F)
  | .shr _ _ => (0x8006, 0xF00F)
  | .subn _ _ => (0x8007, 0xF00F)
  | .shl _ _ => (0x800E, 0xF00F)
  | .sneVV _ _ => (0x9000, 0xF00F)
  | .ldI _ => (0xA000, 0xF000)
  | .jpV0 _ => (0xB000, 0xF000)
  | .rnd _ _ => (0xC000, 0xF000)
  | .drw _ _ _ => (0xD000, 0xF000)
  | .skp _ => (0xE09E, 0xF0FF)
  | .sknp _ => (0xE0A1, 0xF0FF)
  | .ldVDT _ => (0xF007, 0xF0FF)
  | .ldVK _ => (0xF00A, 0xF0FF)
  | .ldDTV _ => (0xF015, 0xF0FF)
  | .ldSTV _ => (0xF018, 0xF0FF)
  | .addIV _ => (0xF01E, 0xF0FF)
  | .ldFV _ => (0xF029, 0xF0FF)
  | .ldBV _ => (0xF033, 0xF0FF)
  | .ldMemV _ => (0xF055, 0xF0FF)
  | .ldVMem _ => (0xF065, 0xF0FF)

/-- The word of `i` has its row's fixed bits. -/
def Statement (i : Instr) : Prop := encode i &&& (row i).2 = (row i).1

/-- A mask over op and an address keeps op where it is all ones there and nothing of the address. -/
theorem keep_op (op : BitVec 4) (nnn : BitVec 12) : formNNN op nnn &&& 0xF000 = formNNN op 0 :=
  (BitVec.and_append (x₁ := op) (x₂ := 0xF#4) (y₁ := nnn) (y₂ := 0#12)).trans
    (congrArg₂ _ BitVec.and_allOnes BitVec.and_zero)

theorem keep_op_XKK (op : BitVec 4) (x : RegIdx) (kk : Byte) : formXKK op x kk &&& 0xF000 = formNNN op 0 :=
  keep_op op (regField x ++ kk)

theorem keep_op_XYN (op : BitVec 4) (x y : RegIdx) (n : BitVec 4) : formXYN op x y n &&& 0xF000 = formNNN op 0 :=
  keep_op op (regField x ++ (regField y ++ n))

/-- The mask of formats XY and XY- keeps op and the low nibble. -/
theorem keep_op_n (op : BitVec 4) (x y : RegIdx) (n : BitVec 4) : formXYN op x y n &&& 0xF00F = formXYN op 0 0 n :=
  (BitVec.and_append (x₁ := op) (x₂ := 0xF#4) (y₁ := regField x ++ (regField y ++ n))
      (y₂ := 0#4 ++ (0#4 ++ 0xF#4))).trans
    (congrArg₂ _ BitVec.and_allOnes
      ((BitVec.and_append (x₁ := regField x) (y₁ := regField y ++ n)).trans
        (congrArg₂ _ BitVec.and_zero
          ((BitVec.and_append (x₁ := regField y) (y₁ := n)).trans
            (congrArg₂ _ BitVec.and_zero BitVec.and_allOnes)))))

/-- The mask of format X keeps op and the low byte. -/
theorem keep_op_kk (op : BitVec 4) (x : RegIdx) (kk : Byte) : formXKK op x kk &&& 0xF0FF = formXKK op 0 kk :=
  (BitVec.and_append (x₁ := op) (x₂ := 0xF#4) (y₁ := regField x ++ kk) (y₂ := 0#4 ++ 0xFF#8)).trans
    (congrArg₂ _ BitVec.and_allOnes
      ((BitVec.and_append (x₁ := regField x) (y₁ := kk)).trans
        (congrArg₂ _ BitVec.and_zero BitVec.and_allOnes)))

theorem cls : Statement (.cls) := rfl
theorem ret : Statement (.ret) := rfl
theorem sys (nnn : BitVec 12) : Statement (.sys nnn) := keep_op _ nnn
theorem jp (nnn : BitVec 12) : Statement (.jp nnn) := keep_op _ nnn
theorem call (nnn : BitVec 12) : Statement (.call nnn) := keep_op _ nnn
theorem seVB (x : RegIdx) (kk : Byte) : Statement (.seVB x kk) := keep_op_XKK _ x kk
theorem sneVB (x : RegIdx) (kk : Byte) : Statement (.sneVB x kk) := keep_op_XKK _ x kk
theorem seVV (x y : RegIdx) : Statement (.seVV x y) := keep_op_n _ x y _
theorem ldVB (x : RegIdx) (kk : Byte) : Statement (.ldVB x kk) := keep_op_XKK _ x kk
theorem addVB (x : RegIdx) (kk : Byte) : Statement (.addVB x kk) := keep_op_XKK _ x kk
theorem ldVV (x y : RegIdx) : Statement (.ldVV x y) := keep_op_n _ x y _
theorem orVV (x y : RegIdx) : Statement (.orVV x y) := keep_op_n _ x y _
theorem andVV (x y : RegIdx) : Statement (.andVV x y) := keep_op_n _ x y _
theorem xorVV (x y : RegIdx) : Statement (.xorVV x y) := keep_op_n _ x y _
theorem addVV (x y : RegIdx) : Statement (.addVV x y) := keep_op_n _ x y _
theorem sub (x y : RegIdx) : Statement (.sub x y) := keep_op_n _ x y _
theorem shr (x y : RegIdx) : Statement (.shr x y) := keep_op_n _ x y _
theorem subn (x y : RegIdx) : Statement (.subn x y) := keep_op_n _ x y _
theorem shl (x y : RegIdx) : Statement (.shl x y) := keep_op_n _ x y _
theorem sneVV (x y : RegIdx) : Statement (.sneVV x y) := keep_op_n _ x y _
theorem ldI (nnn : BitVec 12) : Statement (.ldI nnn) := keep_op _ nnn
theorem jpV0 (nnn : BitVec 12) : Statement (.jpV0 nnn) := keep_op _ nnn
theorem rnd (x : RegIdx) (kk : Byte) : Statement (.rnd x kk) := keep_op_XKK _ x kk
theorem drw (x y : RegIdx) (n : BitVec 4) : Statement (.drw x y n) := keep_op_XYN _ x y n
theorem skp (x : RegIdx) : Statement (.skp x) := keep_op_kk _ x _
theorem sknp (x : RegIdx) : Statement (.sknp x) := keep_op_kk _ x _
theorem ldVDT (x : RegIdx) : Statement (.ldVDT x) := keep_op_kk _ x _
theorem ldVK (x : RegIdx) : Statement (.ldVK x) := keep_op_kk _ x _
theorem ldDTV (x : RegIdx) : Statement (.ldDTV x) := keep_op_kk _ x _
theorem ldSTV (x : RegIdx) : Statement (.ldSTV x) := keep_op_kk _ x _
theorem addIV (x : RegIdx) : Statement (.addIV x) := keep_op_kk _ x _
theorem ldFV (x : RegIdx) : Statement (.ldFV x) := keep_op_kk _ x _
theorem ldBV (x : RegIdx) : Statement (.ldBV x) := keep_op_kk _ x _
theorem ldMemV (x : RegIdx) : Statement (.ldMemV x) := keep_op_kk _ x _
theorem ldVMem (x : RegIdx) : Statement (.ldVMem x) := keep_op_kk _ x _

end Sys2Proof.Laws.TableRow
end

