-- ==== Sys2Proof/Laws/Step.lean ====
section
/-! SUPPORT. Everything a step, a cycle and an instruction can do, said once: inversion, and what a cycle in Running
does. -/

namespace Sys2Proof.Machine

/-- Everything a step that answers a next state can have done: idled, or performed the host's next operation. -/
theorem step_cases {s t : State} (h : step s = .next t) :
    (s.calls = [] ∧ t = s) ∨
    (∃ now0 rest, s.calls = .reset now0 :: rest ∧ t = { s with calls := rest }.performReset now0) ∨
    (∃ image rest, s.calls = .load image :: rest ∧ t = { s with calls := rest }.performLoad image) ∨
    (∃ rest, s.calls = .loadUnreadable :: rest ∧ t = { s with calls := rest }.noteUnreadable) ∨
    (∃ input rest, s.calls = .cycle input :: rest ∧ cycle input { s with calls := rest } = .next t) := by
  unfold step at h
  split at h
  · next hc => exact .inl ⟨hc, (Host.Outcome.next.inj h).symm⟩
  · next call rest hc =>
    cases call with
    | reset now0 => exact .inr (.inl ⟨now0, rest, hc, (Host.Outcome.next.inj h).symm⟩)
    | load image => exact .inr (.inr (.inl ⟨image, rest, hc, (Host.Outcome.next.inj h).symm⟩))
    | loadUnreadable => exact .inr (.inr (.inr (.inl ⟨rest, hc, (Host.Outcome.next.inj h).symm⟩)))
    | cycle input => exact .inr (.inr (.inr (.inr ⟨input, rest, hc, h⟩)))

/-- An instruction always completes in a next state: none stops the machine. -/
theorem exec_complete (i : Instr) (s : State) : ∃ e, exec i s = complete s e := by
  cases i <;> simp only [exec,
    execCls, execRet, execSys, execJp, execCall, execSeVB, execSneVB, execSeVV, execLdVB, execAddVB, execLdVV,
    execOrVV, execAndVV, execXorVV, execAddVV, execSub, execShr, execSubn, execShl, execSneVV, execLdI, execJpV0,
    execRnd, execDrw, execSkp, execSknp, execLdVDT, execLdVK, execLdDTV, execLdSTV, execAddIV, execLdFV, execLdBV,
    execLdMemV, execLdVMem] <;> exact ⟨_, rfl⟩

/-- Everything a cycle that answers a next state can have done. -/
theorem cycle_cases {input : CycleInput} {s t : State} (h : cycle input s = .next t) :
    (s.status ≠ .running ∧ t = s.noCycle) ∨
    (s.status = .running ∧ ¬ input.now < s.input.now ∧
      ((∃ r, fetchAndAdvance (s.beginCycle input) = .error r ∧ t = (s.beginCycle input).takeFault s.pc r) ∨
       (∃ why u, fetchAndAdvance (s.beginCycle input) = .ok (.reject why, u) ∧ t = u.endCycle) ∨
       (∃ i u v, fetchAndAdvance (s.beginCycle input) = .ok (.accept i, u) ∧ exec i u = .next v ∧ t = v.endCycle))) := by
  unfold cycle at h
  split at h
  · next hs => exact .inl ⟨by simp [hs], (Host.Outcome.next.inj h).symm⟩
  · next hs => exact .inl ⟨by simp [hs], (Host.Outcome.next.inj h).symm⟩
  · next hs =>
    split at h
    · cases h
    · next hn =>
      refine .inr ⟨hs, hn, ?_⟩
      dsimp only at h
      split at h
      · next r hr => exact .inl ⟨r, hr, (Host.Outcome.next.inj h).symm⟩
      · next d u hd =>
        cases d with
        | reject why => exact .inr (.inl ⟨why, u, hd, (Host.Outcome.next.inj h).symm⟩)
        | accept i =>
          refine .inr (.inr ⟨i, u, ?_⟩)
          unfold execute at h
          dsimp only at h
          split at h
          · next v hv => exact ⟨v, hd, hv, (Host.Outcome.next.inj h).symm⟩
          · cases h
          · cases h

/-- What `fetchAndAdvance` leaves when it succeeds: pc alone has moved. -/
theorem fetchAndAdvance_ok {s u : State} {d : Decoded} (h : fetchAndAdvance s = .ok (d, u)) :
    s.pc.toNat ≤ 0xFFD ∧ u = { s with pc := s.pc + 2 } ∧
      d = decode s.params (wordOfBytes (s.byteAt s.pc.toNat) (s.byteAt (s.pc.toNat + 1))) := by
  by_cases hle : s.pc.toNat ≤ 0xFFD
  · rw [fetchAndAdvance_of_le s hle] at h
    simp only [Except.ok.injEq, Prod.mk.injEq] at h
    exact ⟨hle, h.2.symm, h.1.symm⟩
  · by_cases he : s.pc.toNat = 0xFFE
    · rw [fetchAndAdvance_at_FFE s he] at h; cases h
    · rw [fetchAndAdvance_of_ge s (by omega)] at h; cases h

/-! ### Forward: a cycle in Running -/

theorem cycle_of_ok {input : CycleInput} {s u : State} {d : Decoded} (hs : s.status = .running)
    (hn : s.input.now ≤ input.now) (hf : fetchAndAdvance (s.beginCycle input) = .ok (d, u)) :
    cycle input s = execute d u := by
  unfold cycle
  split
  · next h => rw [hs] at h; cases h
  · next h => rw [hs] at h; cases h
  · simp only [not_lt.mpr hn, if_false, hf]

theorem cycle_of_error {input : CycleInput} {s : State} {r : Raise} (hs : s.status = .running)
    (hn : s.input.now ≤ input.now) (hf : fetchAndAdvance (s.beginCycle input) = .error r) :
    cycle input s = .next ((s.beginCycle input).takeFault s.pc r) := by
  unfold cycle
  split
  · next h => rw [hs] at h; cases h
  · next h => rw [hs] at h; cases h
  · simp only [not_lt.mpr hn, if_false, hf]; rfl

/-- A step whose fetch and advance succeed executes what is decoded at pc. -/
theorem step_of_runsCycle {s : State} {input : CycleInput} {rest : List HostCall} (h : s.runsCycle input rest)
    (hp : s.pc.toNat ≤ 0xFFD) : step s = execute s.decodedAtPc (s.executing input rest) := by
  obtain ⟨h1, h2, h3⟩ := h
  unfold step
  rw [h2]
  exact cycle_of_ok (s := { s with calls := rest }) h1 h3
    (fetchAndAdvance_of_le (State.beginCycle { s with calls := rest } input) hp)

/-- A step whose fetch or advance raises takes the fault. -/
theorem step_of_fetch_error {s : State} {input : CycleInput} {rest : List HostCall} {r : Raise}
    (h : s.runsCycle input rest)
    (hf : fetchAndAdvance (State.beginCycle { s with calls := rest } input) = .error r) :
    step s = .next (State.takeFault (State.beginCycle { s with calls := rest } input) s.pc r) := by
  obtain ⟨h1, h2, h3⟩ := h
  unfold step
  rw [h2]
  exact cycle_of_error (s := { s with calls := rest }) h1 h3 hf

theorem execute_accept {i : Instr} {s t : State} (h : exec i s = .next t) :
    execute (.accept i) s = .next t.endCycle := by
  simp only [execute, h]

/-- Every instruction answers a next state. -/
theorem exec_next (i : Instr) (s : State) : ∃ t, exec i s = .next t := by
  obtain ⟨e, he⟩ := exec_complete i s
  rcases complete_cases s e with ⟨t, -, h⟩ | ⟨r, -, h⟩
  · exact ⟨t, he.trans h⟩
  · exact ⟨_, he.trans h⟩

/-- A run of one step more starts with that step. -/
theorem core_run_succ {s t : State} (n : Nat) (h : step s = .next t) :
    Sys2Proof.core.run (n + 1) s = Sys2Proof.core.run n t := by
  simp only [Host.Core.run]
  rw [show core.step s = .next t from h]

end Sys2Proof.Machine
end

