-- ==== Sys2Proof/Tests/Slice0.lean ====
section
/-! SUPPORT. Tests: the well-formedness check, the decoder on words written out from spec/30_encoding.md R54 and R60, one
step per vector of spec/95_test_vectors.md (the vector's id is in the theorem's name), and for every obligation that has
hypotheses a state and operands that meet them. The expected results are the spec's. -/

namespace Sys2Proof.Tests

open Sys2Proof Sys2Proof.Machine

/-! ### Helpers -/

/-- The outcome is a next state with the property. -/
def after (o : Host.Outcome State Fault Refusal) (f : State → Bool) : Bool :=
  match o with
  | .next t => f t
  | .fault _ => false
  | .refused _ => false

/-- One cycle of the word `w`, stored at pc, with the vectors' default inputs. -/
def one (s : State) (w : Nat) (f : State → Bool) : Bool := after (step (s.withFetchWord 16 w)) f

/-- The word `w` stored at pc, and a Cycle with `input` as the host's next operation. -/
def ready (s : State) (w : Nat) (input : CycleInput) : State := { s.withFetchWord 16 w with calls := [.cycle input] }

/-- One cycle of the word `w`, stored at pc, with `input`. -/
def oneWith (s : State) (w : Nat) (input : CycleInput) (f : State → Bool) : Bool := after (step (ready s w input)) f

/-- The vectors' start state: after reset, with the registers of the list. -/
def start (regs : List (RegIdx × Byte)) : State := regs.foldl (fun s r => s.setV r.1 r.2) State.reset

/-- The same under RESULT_THEN_FLAG. -/
def startRtf (regs : List (RegIdx × Byte)) : State :=
  { start regs with params := { Params.spec with aluVfOrder := .resultThenFlag } }

/-- The status is Faulted with the kind, the `fault_pc` and the `fault_value`. -/
def faultedAs (t : State) (kind : FaultKind) (pc : Word) (value : Nat) : Bool :=
  t.status == .faulted { kind := kind, faultPc := pc, faultValue := value } && t.pc == pc

/-- Quiet inputs with one key held. -/
def holding (k : KeyIdx) : CycleInput := { CycleInput.quiet 0 with keys := (CycleInput.quiet 0).keys.set k true }

/-! ### Well-formedness (R55, R57, R58) -/

theorem test_wf_sys_refuses_cls : WellFormed Params.spec (.sys 0x0E0) = false := by decide
theorem test_wf_sys_refuses_ret : WellFormed Params.spec (.sys 0x0EE) = false := by decide
theorem test_wf_sys_ignoring_x :
    WellFormed { Params.spec with decodeOp0IgnoreX := true } (.sys 0x1E0) = false ∧
    WellFormed { Params.spec with decodeOp0IgnoreX := true } (.sys 0xAEE) = false ∧
    WellFormed Params.spec (.sys 0x1E0) = true ∧ WellFormed Params.spec (.sys 0x0E1) = true := by decide

/-! ### Decoding (2.1 of the vectors; R54) -/

theorem test_decode_display_and_control :
    decode Params.spec 0x00E0 = .accept .cls ∧ decode Params.spec 0x00EE = .accept .ret ∧
    decode Params.spec 0x0000 = .accept (.sys 0) ∧ decode Params.spec 0x01E0 = .accept (.sys 0x1E0) ∧
    decode Params.spec 0x1ABC = .accept (.jp 0xABC) ∧ decode Params.spec 0x2ABC = .accept (.call 0xABC) ∧
    decode Params.spec 0x3A12 = .accept (.seVB 0xA 0x12) ∧ decode Params.spec 0x4A12 = .accept (.sneVB 0xA 0x12) ∧
    decode Params.spec 0x5AB0 = .accept (.seVV 0xA 0xB) ∧ decode Params.spec 0x9AB0 = .accept (.sneVV 0xA 0xB) ∧
    decode Params.spec 0xBFFF = .accept (.jpV0 0xFFF) ∧ decode Params.spec 0xD12F = .accept (.drw 1 2 0xF) := by decide

theorem test_decode_arithmetic :
    decode Params.spec 0x6A2C = .accept (.ldVB 0xA 0x2C) ∧ decode Params.spec 0x7220 = .accept (.addVB 2 0x20) ∧
    decode Params.spec 0x8120 = .accept (.ldVV 1 2) ∧ decode Params.spec 0x8121 = .accept (.orVV 1 2) ∧
    decode Params.spec 0x8122 = .accept (.andVV 1 2) ∧ decode Params.spec 0x8123 = .accept (.xorVV 1 2) ∧
    decode Params.spec 0x8124 = .accept (.addVV 1 2) ∧ decode Params.spec 0x8125 = .accept (.sub 1 2) ∧
    decode Params.spec 0x8AB6 = .accept (.shr 0xA 0xB) ∧ decode Params.spec 0x8127 = .accept (.subn 1 2) ∧
    decode Params.spec 0x8ABE = .accept (.shl 0xA 0xB) ∧ decode Params.spec 0xC0FF = .accept (.rnd 0 0xFF) := by decide

theorem test_decode_memory_keys_timers :
    decode Params.spec 0xA300 = .accept (.ldI 0x300) ∧ decode Params.spec 0xE19E = .accept (.skp 1) ∧
    decode Params.spec 0xE1A1 = .accept (.sknp 1) ∧ decode Params.spec 0xF307 = .accept (.ldVDT 3) ∧
    decode Params.spec 0xF10A = .accept (.ldVK 1) ∧ decode Params.spec 0xF115 = .accept (.ldDTV 1) ∧
    decode Params.spec 0xF218 = .accept (.ldSTV 2) ∧ decode Params.spec 0xF21E = .accept (.addIV 2) ∧
    decode Params.spec 0xF429 = .accept (.ldFV 4) ∧ decode Params.spec 0xF533 = .accept (.ldBV 5) ∧
    decode Params.spec 0xF255 = .accept (.ldMemV 2) ∧ decode Params.spec 0xF265 = .accept (.ldVMem 2) := by decide

theorem test_decode_unknown :
    decode Params.spec 0x5AB1 = .reject .unknown5xyN ∧ decode Params.spec 0x9ABF = .reject .unknown9xyN ∧
    decode Params.spec 0x8AB8 = .reject .unknown8xyN ∧ decode Params.spec 0x8ABF = .reject .unknown8xyN ∧
    decode Params.spec 0xE1A0 = .reject .unknownExKK ∧ decode Params.spec 0xF100 = .reject .unknownFxKK ∧
    decode Params.spec 0xFFFF = .reject .unknownFxKK := by decide

theorem test_decode_other_parameters :
    decode { Params.spec with decodeOp0IgnoreX := true } 0x01E0 = .accept .cls ∧
    decode { Params.spec with decodeOp0IgnoreX := true } 0x0AEE = .accept .ret ∧
    decode { Params.spec with decode59IgnoreN := true } 0x5AB1 = .accept (.seVV 0xA 0xB) ∧
    decode { Params.spec with decode59IgnoreN := true } 0x9ABF = .accept (.sneVV 0xA 0xB) := by decide

theorem test_table_word :
    decodeTableWord 16 0x8AB6 = some (.shr 0xA 0xB) ∧ decodeTableWord 16 0x5AB1 = none ∧
    decodeTableWord 16 0x00E0 = some .cls := by decide

/-! ### Display (2.2 of the vectors) -/

theorem test_cls_D1 :
    one { State.reset with fb := State.reset.fb.setPixel 5 7 true } 0x00E0
      (fun t => !t.fb.pixel 5 7 && t.changed && t.pc == 0x202) = true := by decide

theorem test_drw_D5_D6_D10 :
    one
      { start [(0, 0x3F), (1, 0x1F)] with
        I := 0x300
        mem := [(0x300, 0xC0), (0x301, 0x80)]
        fb := State.reset.fb.setPixel 31 63 true }
      0xD012
      (fun t => t.getV VF == 1 && !t.fb.pixel 31 63 && t.fb.pixel 31 0 && t.fb.pixel 0 63 && !t.fb.pixel 0 0 &&
        t.changed) = true := by decide

theorem test_drw_D11_D12 :
    one { start [(1, 2), (VF, 0xA)] with I := 0x300, mem := [(0x300, 0x80)] } 0xDF11
      (fun t => t.getV VF == 0 && t.fb.pixel 2 10 && t.changed) = true ∧
    one { State.reset with I := 0xFFF, mem := [(0xFFF, 0xFF)] } 0xD012
      (fun t => faultedAs t .memoryOutOfRange 0x200 0x1000 && !t.fb.pixel 0 0 && !t.changed) = true := by decide

/-! ### Control flow (2.3 of the vectors) -/

theorem test_sys_C1 : one State.reset 0x0123 (fun t => t.pc == 0x202 && !t.changed) = true := by decide

theorem test_ret_C3 :
    one { State.reset with sp := 1, stack := State.reset.stack.set 0 0x206 } 0x00EE
      (fun t => t.pc == 0x206 && t.sp == 0 && t.stack[0] == 0x206) = true := by decide
theorem test_ret_C4 : one State.reset 0x00EE (fun t => faultedAs t .stackUnderflow 0x200 0) = true := by decide

theorem test_jp_C6_C7 :
    one State.reset 0x1200 (fun t => t.pc == 0x200) = true ∧ one State.reset 0x1FFF (fun t => t.pc == 0xFFF) = true := by
  decide

theorem test_call_C9 :
    one { State.reset with pc := 0x204, sp := 15 } 0x2300
      (fun t => t.pc == 0x300 && t.sp == 16 && t.stack[15] == 0x206) = true := by decide
theorem test_call_C10 :
    one { State.reset with pc := 0x204, sp := 16 } 0x2300 (fun t => faultedAs t .stackOverflow 0x204 16) = true := by
  decide

theorem test_seVB_C11_C12 :
    one (start [(3, 0x42)]) 0x3342 (fun t => t.pc == 0x204) = true ∧
    one (start [(3, 0x41)]) 0x3342 (fun t => t.pc == 0x202) = true := by decide
theorem test_seVB_C23_C24 :
    one { State.reset with pc := 0xFFC } 0x3000 (fun t => faultedAs t .pcOutOfRange 0xFFC 0x1000) = true ∧
    one { State.reset with pc := 0xFFC } 0x3001 (fun t => t.pc == 0xFFE) = true := by decide
theorem test_sneVB_C13_C14 :
    one (start [(3, 0x42)]) 0x4342 (fun t => t.pc == 0x202) = true ∧
    one State.reset 0x4342 (fun t => t.pc == 0x204) = true := by decide
theorem test_seVV_C15_C16 :
    one (start [(1, 7), (2, 7)]) 0x5120 (fun t => t.pc == 0x204) = true ∧
    one (start [(1, 7), (2, 8)]) 0x5120 (fun t => t.pc == 0x202) = true := by decide
theorem test_sneVV_C18_C19 :
    one (start [(1, 7), (2, 8)]) 0x9120 (fun t => t.pc == 0x204) = true ∧
    one (start [(1, 7)]) 0x9110 (fun t => t.pc == 0x202) = true := by decide
theorem test_unknown_C17 : one (start [(1, 7), (2, 7)]) 0x5121 (fun t => t.pc == 0x202 && t.status == .running) = true := by
  decide

theorem test_jpV0_C20_C22 :
    one (start [(0, 0x10)]) 0xB300 (fun t => t.pc == 0x310) = true ∧
    one (start [(0, 1)]) 0xBFFF (fun t => faultedAs t .pcOutOfRange 0x200 0x1000) = true := by decide

theorem test_cycle_C25_C26 :
    one { State.reset with pc := 0xFFE } 0x6000 (fun t => faultedAs t .pcOutOfRange 0xFFE 0x1000) = true ∧
    one { State.reset with pc := 0xFFF } 0x6000 (fun t => faultedAs t .memoryOutOfRange 0xFFF 0x1000) = true := by decide

/-! ### Arithmetic and logic (2.4 of the vectors) -/

theorem test_ldVB_A1 : one State.reset 0x6A2C (fun t => t.getV 0xA == 0x2C && t.pc == 0x202) = true := by decide
theorem test_addVB_A2_A3 :
    one (start [(2, 0xF0), (VF, 1)]) 0x7220 (fun t => t.getV 2 == 0x10 && t.getV VF == 1) = true ∧
    one State.reset 0x72FF (fun t => t.getV 2 == 0xFF) = true := by decide
theorem test_ldVV_A4 : one (start [(1, 5)]) 0x8010 (fun t => t.getV 0 == 5) = true := by decide
theorem test_logic_A5_A6_A7 :
    one (start [(0, 0xC), (1, 0xA), (VF, 1)]) 0x8011 (fun t => t.getV 0 == 0xE && t.getV VF == 1) = true ∧
    one (start [(0, 0xC), (1, 0xA)]) 0x8012 (fun t => t.getV 0 == 8) = true ∧
    one (start [(0, 0xC), (1, 0xA)]) 0x8013 (fun t => t.getV 0 == 6) = true := by decide
theorem test_addVV_A11_A15 :
    one (start [(0, 0xFF), (1, 1)]) 0x8014 (fun t => t.getV 0 == 0 && t.getV VF == 1) = true ∧
    one (start [(0, 0xC8), (VF, 0x64)]) 0x80F4 (fun t => t.getV 0 == 0x2C && t.getV VF == 1) = true := by decide
theorem test_addVV_A13_A14 :
    one (start [(1, 0x64), (VF, 0xC8)]) 0x8F14 (fun t => t.getV VF == 0x2C) = true ∧
    one (startRtf [(1, 0x64), (VF, 0xC8)]) 0x8F14 (fun t => t.getV VF == 1) = true := by decide
theorem test_sub_A17_A18 :
    one (start [(0, 3), (1, 3), (VF, 1)]) 0x8015 (fun t => t.getV 0 == 0 && t.getV VF == 0) = true ∧
    one (start [(0, 1), (1, 2)]) 0x8015 (fun t => t.getV 0 == 0xFF && t.getV VF == 0) = true := by decide
theorem test_sub_A19_to_A22 :
    one (start [(1, 3), (VF, 0xA)]) 0x8F15 (fun t => t.getV VF == 0xFE) = true ∧
    one (startRtf [(1, 3), (VF, 0xA)]) 0x8F15 (fun t => t.getV VF == 1) = true ∧
    one (start [(0, 0xA), (VF, 3)]) 0x80F5 (fun t => t.getV 0 == 9 && t.getV VF == 1) = true ∧
    one (startRtf [(0, 0xA), (VF, 3)]) 0x80F5 (fun t => t.getV 0 == 7 && t.getV VF == 1) = true := by decide
theorem test_shr_A24 : one (start [(3, 4), (0xA, 0xFF)]) 0x83A6 (fun t => t.getV 3 == 2 && t.getV VF == 0) = true := by
  decide
theorem test_shr_A25_A26 :
    one (start [(VF, 3)]) 0x8F06 (fun t => t.getV VF == 0) = true ∧
    one (startRtf [(VF, 3)]) 0x8F06 (fun t => t.getV VF == 1) = true := by decide
theorem test_subn_A27_A28 :
    one (start [(0, 3), (1, 0xA)]) 0x8017 (fun t => t.getV 0 == 7 && t.getV VF == 1) = true ∧
    one (start [(0, 0xA), (1, 3)]) 0x8017 (fun t => t.getV 0 == 0xF9 && t.getV VF == 0) = true := by decide
theorem test_shl_A30_A31 :
    one (start [(3, 0x81)]) 0x830E (fun t => t.getV 3 == 2 && t.getV VF == 1) = true ∧
    one (start [(3, 0x40)]) 0x830E (fun t => t.getV 3 == 0x80 && t.getV VF == 0) = true := by decide
theorem test_rnd_R91 :
    oneWith State.reset 0xC30F { CycleInput.quiet 0 with rnd := 0xB7 } (fun t => t.getV 3 == 7) = true := by decide

/-! ### Memory and index (2.5 of the vectors) -/

theorem test_ldI_M1 : one State.reset 0xA300 (fun t => t.I == 0x300 && t.pc == 0x202) = true := by decide
theorem test_addIV_M3_M4 :
    one { start [(2, 0xF), (VF, 1)] with I := 0xFF0 } 0xF21E (fun t => t.I == 0xFFF && t.getV VF == 1) = true ∧
    one { start [(2, 0x10)] with I := 0xFF0 } 0xF21E
      (fun t => faultedAs t .indexOutOfRange 0x200 0x1000 && t.I == 0xFF0) = true := by decide
theorem test_ldFV_M6_M7 :
    one (start [(4, 0x1A)]) 0xF429 (fun t => t.I == 0x82) = true ∧
    one { start [(4, 0x1A)] with params := { Params.spec with fx29MaskDigit := false } } 0xF429
      (fun t => t.I == 0xD2) = true := by decide
theorem test_ldBV_M9_M13 :
    one { start [(5, 0x9C)] with I := 0x300 } 0xF533
      (fun t => t.byteAt 0x300 == 1 && t.byteAt 0x301 == 5 && t.byteAt 0x302 == 6) = true ∧
    one { start [(5, 1)] with I := 0xFFE } 0xF533
      (fun t => faultedAs t .memoryOutOfRange 0x200 0x1000 && t.byteAt 0xFFE == 0) = true := by decide
theorem test_ldMemV_M14_M15 :
    one { start [(0, 1), (1, 2), (2, 3)] with I := 0x300 } 0xF255
      (fun t => t.byteAt 0x300 == 1 && t.byteAt 0x302 == 3 && t.byteAt 0x303 == 0 && t.I == 0x300) = true ∧
    one { start [(0, 0xAB)] with I := 0xFFF } 0xF055 (fun t => t.byteAt 0xFFF == 0xAB) = true := by decide
theorem test_ldMemV_M16_M19 :
    one { start [(VF, 0xEE)] with I := 0xFF1 } 0xFF55 (fun t => faultedAs t .memoryOutOfRange 0x200 0x1000) = true ∧
    one { start [(0, 0x12)] with I := 0x200 } 0xF055 (fun t => t.byteAt 0x200 == 0x12 && t.byteAt 0x201 == 0x55) = true := by
  decide
theorem test_ldVMem_M17_M18 :
    one { State.reset with I := 0x300, mem := [(0x300, 1), (0x301, 5), (0x302, 6)] } 0xF265
      (fun t => t.getV 0 == 1 && t.getV 1 == 5 && t.getV 2 == 6 && t.getV 3 == 0) = true ∧
    one { State.reset with I := 0x300, mem := [(0x30F, 0x42)] } 0xFF65 (fun t => t.getV VF == 0x42) = true := by decide

/-! ### Keys and timers (2.6 and 2.7 of the vectors) -/

theorem test_skp_K2_K3 :
    one (start [(0, 5)]) 0xE09E (fun t => t.pc == 0x202) = true ∧
    oneWith (start [(0, 0x15)]) 0xE09E (holding 5) (fun t => t.pc == 0x204) = true := by decide
theorem test_sknp_K4_K5 :
    one (start [(0, 5)]) 0xE0A1 (fun t => t.pc == 0x204) = true ∧
    oneWith (start [(0, 5)]) 0xE0A1 (holding 5) (fun t => t.pc == 0x202) = true := by decide
theorem test_ldVDT_K8 :
    oneWith { State.reset with DT := 60 } 0xF307 (CycleInput.quiet (1 / 30))
      (fun t => t.getV 3 == 60 && t.DT == 59 && t.lastTick == 1 / 30) = true := by decide +kernel
theorem test_ldVK_K9_K10 :
    one State.reset 0xF30A (fun t => t.pc == 0x200 && t.getV 3 == 0) = true ∧
    oneWith State.reset 0xF30A (holding 7) (fun t => t.pc == 0x202 && t.getV 3 == 7) = true := by decide
theorem test_ldVK_K11 :
    oneWith State.reset 0xF30A { holding 2 with keys := (holding 2).keys.set 9 true } (fun t => t.getV 3 == 2) = true ∧
    oneWith State.reset 0xF30A { holding 2 with keys := (holding 2).keys.set 9 true, keyDraw := 9 }
      (fun t => t.getV 3 == 9) = true := by decide
theorem test_ldDTV_K14 :
    oneWith { start [(1, 0x3C)] with ST := 10 } 0xF115 (CycleInput.quiet 5)
      (fun t => t.DT == 60 && t.ST == 10 && t.lastTick == 5) = true := by decide
theorem test_ldSTV_K15 :
    oneWith (start [(2, 0x20)]) 0xF218 (CycleInput.quiet (1 / 30)) (fun t => t.ST == 31 && t.lastTick == 1 / 30) = true := by
  decide +kernel
theorem test_timer_T2_T6 :
    oneWith { State.reset with DT := 10 } 0x0000 (CycleInput.quiet 10) (fun t => t.DT == 9 && t.lastTick == 10) = true ∧
    oneWith { State.reset with ST := 1 } 0x0000 (CycleInput.quiet (1 / 50)) (fun t => t.DT == 0 && t.ST == 0) = true := by
  decide +kernel
theorem test_timer_T4_T5 :
    oneWith { State.reset with DT := 10 } 0x0000 (CycleInput.quiet (1 / 60)) (fun t => t.DT == 10) = true ∧
    oneWith { State.reset with DT := 10 } 0x0000 { CycleInput.quiet (1 / 60) with tickAtBoundary := true }
      (fun t => t.DT == 9) = true := by decide +kernel
theorem test_timer_T8 :
    oneWith { State.reset with DT := 10 } 0x00EE (CycleInput.quiet (1 / 50))
      (fun t => faultedAs t .stackUnderflow 0x200 0 && t.DT == 10 && t.lastTick == 0) = true := by decide +kernel

/-! ### Witnesses: states and operands that meet the hypotheses of the obligations, named after them -/

/-- The image of the one-instruction program `00E0`. -/
def image : List Byte := [0x00, 0xE0]

theorem wit_ResetGivesTheTableOfR32 :
    ({ State.reset with calls := [.reset 1], status := .running } : State).calls = .reset 1 :: [] := rfl

theorem wit_EveryStepKeepsTheInvariant :
    ∃ s t : State, s.Inv ∧ s.calls ≠ [] ∧ step s = .next t :=
  ⟨{ State.reset with calls := [.load image] }, _,
    ⟨by decide, by decide, by decide, by decide, le_refl _⟩, by decide, rfl⟩

theorem wit_ReachableStatesStayInRange :
    after (Sys2Proof.core.run 2
      ({ State.resetAt Params.spec 0 with calls := [.load [0x22, 0x00], .cycle (CycleInput.quiet 1)] } : State))
      (fun t : State => t.sp == 1 && t.stack[0] == 0x202) = true := by decide

theorem wit_LoadCopiesTheImage :
    (image.length ≤ 3584 ∧ (List.replicate 3584 (0 : Byte)).length ≤ 3584) ∧
    3584 < (List.replicate 3585 (0 : Byte)).length ∧ State.reset.status = .unloaded ∧
    ({ State.reset with status := .running } : State).status ≠ .unloaded := by
  simp only [List.length_replicate]; decide

theorem wit_LoadErrorsCopyNothing :
    ({ State.reset with calls := [.load (List.replicate 3585 0)] } : State).calls =
      .load (List.replicate 3585 0) :: [] ∧
    State.reset.status = .unloaded ∧ 3584 < (List.replicate 3585 (0 : Byte)).length ∧
    ({ State.reset with calls := [.loadUnreadable] } : State).calls = .loadUnreadable :: [] :=
  ⟨rfl, rfl, by simp only [List.length_replicate]; decide, rfl⟩

theorem wit_OutOfOrderOperations :
    ({ State.reset with calls := [.cycle (CycleInput.quiet 0)] } : State).calls = .cycle (CycleInput.quiet 0) :: [] ∧
    State.reset.status ≠ .running ∧
    ({ State.reset with status := .running, calls := [.load image] } : State).calls = .load image :: [] ∧
    ({ State.reset with status := .running } : State).status ≠ .unloaded ∧
    ({ State.reset with calls := [.reset 1] } : State).calls = .reset 1 :: [] := by decide

theorem wit_OnlyABackwardClockIsRefused :
    step ({ State.resetAt Params.spec 1 with status := .running, calls := [.cycle (CycleInput.quiet 0)] } : State) =
      .refused .clockRanBackward := rfl

theorem wit_ParametersAreFixed :
    (∃ t, step { State.reset with calls := [.reset 1] } = .next t) ∧ (∃ t, exec (.addVB 1 5) State.reset = .next t) :=
  ⟨⟨_, rfl⟩, ⟨_, rfl⟩⟩

/-- A running state whose next operation is a Cycle of the word `w` at 0x200. -/
theorem ready_runsCycle (w : Nat) (input : CycleInput) (h : 0 ≤ input.now) :
    (ready State.reset w input).runsCycle input [] := ⟨rfl, rfl, h⟩

theorem wit_InstructionsWriteOnlyTheirState :
    after (exec .cls { State.reset with fb := State.reset.fb.setPixel 0 0 true })
      (fun t => !t.fb.pixel 0 0 && t.changed) = true ∧
    after (exec (.addIV 1) (start [(1, 2)])) (fun t => t.I == 2) = true ∧
    after (exec (.call 0x300) State.reset) (fun t => t.sp == 1 && t.stack[0] == 0x200) = true ∧
    after (exec (.ldDTV 1) { start [(1, 2)] with input := CycleInput.quiet 5 })
      (fun t => t.DT == 2 && t.lastTick == 5) = true ∧
    after (exec (.ldSTV 1) (start [(1, 2)])) (fun t => t.ST == 2) = true ∧
    after (exec (.ldBV 1) { start [(1, 2)] with I := 0x300 }) (fun t => t.byteAt 0x302 == 2) = true ∧
    after (exec .ret State.reset) (fun t => t.status == .faulted ⟨.stackUnderflow, 0x1FE, 0⟩) = true := by decide

theorem wit_InstructionsWriteOnlyTheirRegisters :
    after (exec (.sub 1 2) (start [(1, 5), (2, 3)])) (fun t => t.getV 1 != 5 && t.getV VF != 0) = true := by decide

theorem wit_PushAndPop :
    ({ State.reset with sp := 15 } : State).sp.val < 16 ∧ ({ State.reset with sp := 16 } : State).sp.val = 16 ∧
    ({ State.reset with sp := 16 } : State).sp.val = (15 : Fin 16).val + 1 ∧ State.reset.sp.val = 0 := by decide

theorem wit_SoundTimerIsNeverRead :
    oneWith { State.reset with ST := 9 } 0x6105 (CycleInput.quiet 1) (fun t => t.ST == 8 && t.getV 1 == 5) = true := by
  decide

theorem wit_StoredBytesAreFetched :
    (0 : RegIdx).val + 1 ≤ (1 : RegIdx).val ∧ ({ State.reset with I := 0xFFE } : State).I.toNat + (1 : RegIdx).val ≤ 0xFFF ∧
    after (exec (.ldMemV 1) { start [(0, 0x12), (1, 0x55)] with I := 0xFFE })
      (fun t => t.byteAt 0xFFE == 0x12 && t.byteAt 0xFFF == 0x55) = true := by decide

theorem wit_CanonicalMemoriesAreEqual :
    Memory.wf Config.fontDefault [(0x050, 0x00), (0x200, 0x12), (0xFFF, 0xAB)] ∧
    ¬ Memory.wf Config.fontDefault [(0x050, 0xF0)] ∧ ¬ Memory.wf Config.fontDefault [(0x1000, 1)] := by decide

theorem wit_DecodeOfEncode :
    WellFormed Params.spec (.sys 0xFFF) = true ∧ WellFormed Params.spec (.shr 0xA 0xB) = true ∧
    encodeBytes (.shr 0xA 0xB) = [0x8A, 0xB6] := by decide

/-- The spec's parameters but for both of R58, which are true. -/
def ignoring : Params := { Params.spec with decodeOp0IgnoreX := true, decode59IgnoreN := true }

theorem wit_EncodeOfDecode :
    decode Params.spec 0xDAB5 = .accept (.drw 0xA 0xB 5) ∧
    decode ignoring 0x01EE = .accept .ret ∧ encode .ret ≠ 0x01EE ∧
    decode ignoring 0x5ABF = .accept (.seVV 0xA 0xB) ∧ encode (.seVV 0xA 0xB) ≠ 0x5ABF ∧
    ignoring.decodeOp0IgnoreX = true ∧ ignoring.decode59IgnoreN = true := by decide

theorem wit_UnknownWordsAreNoOps :
    (ready State.reset 0xF1FF (CycleInput.quiet 1)).decodedAtPc = .reject .unknownFxKK ∧
    (ready State.reset 0xF1FF (CycleInput.quiet 1)).runsCycle (CycleInput.quiet 1) [] :=
  ⟨by decide, ready_runsCycle _ _ (by decide)⟩

theorem wit_StepRunsTheDecodedInstruction :
    let s := ready State.reset 0x00EE (CycleInput.quiet 1)
    s.runsCycle (CycleInput.quiet 1) [] ∧ WellFormed s.params .ret = true ∧
    [s.byteAt s.pc.toNat, s.byteAt (s.pc.toNat + 1)] = encodeBytes .ret ∧
    after (exec .ret (s.executing (CycleInput.quiet 1) [])) (fun t => faultedAs t .stackUnderflow 0x200 0) = true :=
  ⟨ready_runsCycle _ _ (by decide), by decide, by decide, by decide⟩

theorem wit_StepRunsWithoutAFault :
    let s := ready { State.reset with pc := 0xFFD } 0x6105 (CycleInput.quiet 1)
    s.runsCycle (CycleInput.quiet 1) [] ∧ s.pc.toNat ≤ 0xFFD ∧ WellFormed s.params (.ldVB 1 5) = true ∧
    [s.byteAt s.pc.toNat, s.byteAt (s.pc.toNat + 1)] = encodeBytes (.ldVB 1 5) ∧
    after (exec (.ldVB 1 5) (s.executing (CycleInput.quiet 1) [])) (fun t => t.status == .running) = true :=
  ⟨⟨rfl, rfl, by decide⟩, by decide, by decide, by decide, by decide⟩

theorem wit_FetchAndAdvanceFaults :
    ({ State.reset with pc := 0xFFE, status := .running, calls := [.cycle (CycleInput.quiet 0)] } : State).runsCycle
      (CycleInput.quiet 0) [] ∧
    ({ State.reset with pc := 0xFFF, status := .running, calls := [.cycle (CycleInput.quiet 0)] } : State).runsCycle
      (CycleInput.quiet 0) [] := ⟨⟨rfl, rfl, le_refl _⟩, ⟨rfl, rfl, le_refl _⟩⟩

theorem wit_DrwDrawsByExclusiveOr :
    ({ State.reset with I := 0xFFF } : State).I.toNat + (1 : BitVec 4).toNat ≤ 0x1000 ∧
    (2 : BitVec 4).toNat ≠ 0 ∧ ({ State.reset with I := 0xFFF } : State).I.toNat ≤ 0xFFF ∧
    0x1000 < ({ State.reset with I := 0xFFF } : State).I.toNat + (2 : BitVec 4).toNat := by decide

theorem wit_DrawingTwiceRestoresTheScreen :
    (0 : RegIdx) ≠ VF ∧
    after (exec (.drw 0 1 5) { start [(0, 63), (1, 30)] with I := 0x050 }) (fun t => t.changed && after
      (exec (.drw 0 1 5) t) fun u => t.fb.pixel 30 63 && !u.fb.pixel 30 63 && u.getV VF == 1) = true ∧
    ((start [(0, 63)]).getV 0).toNat = 63 ∧ (0xF0 : Byte).getLsbD 6 = true ∧ (8 : Fin 32).val = (40 : Byte).toNat % 32 := by
  decide

theorem wit_DecoderParameters :
    let s := ready State.reset 0x6105 (CycleInput.quiet 1)
    (1 : RegIdx) ≠ 0 ∧ (0xF : BitVec 4) ≠ 0 ∧ s.runsCycle (CycleInput.quiet 1) [] ∧ ¬ ReadsDecoderParams s.bytesAtPc ∧
    after (step (s.withDecoderParams true true)) (fun t => t.getV 1 == 5 && t.params == ignoring) = true :=
  ⟨by decide, by decide, ready_runsCycle _ _ (by decide), by unfold ReadsDecoderParams; decide, by decide⟩

theorem wit_SysIsANoOp : (0x1E0 : BitVec 12) ≠ 0x0E0 ∧ (0x1E0 : BitVec 12) ≠ 0x0EE := by decide

theorem wit_CallAndRet :
    ({ State.reset with sp := 1 } : State).sp.val = (0 : Fin 16).val + 1 ∧ State.reset.sp.val = 0 ∧
    ({ State.reset with sp := 15 } : State).sp.val = (15 : Fin 16).val ∧
    ({ State.reset with sp := 16 } : State).sp.val = 16 := by decide

/-- In between, a nested call has overwritten the entry above the one that matters. -/
theorem wit_CallThenRetComesBack :
    after (exec (.call 0x300) { State.reset with sp := 14 }) (fun t =>
      let u : State := { t with pc := 0x308, stack := t.stack.set 15 0x306 }
      u.stack != t.stack && u.stack[14] == t.stack[14] &&
      after (exec .ret u) fun v => v.pc == 0x200 && v.sp == 14) = true := by decide

/-- A run of one cycle, a nested CALL at depth 1. -/
theorem wit_CallThenRetComesBack_run :
    let t := ready { State.reset with sp := 1, stack := State.reset.stack.set 0 0x206 } 0x2300 (CycleInput.quiet 0)
    after (Sys2Proof.core.run 1 t) (fun u => u.sp == 2 && u.stack[0] == 0x206) = true ∧ (0 : Fin 16).val < t.sp.val ∧
    ∀ (m : Nat) (v : State), m < 1 → Sys2Proof.core.run m t = .next v →
      t.sp.val ≤ v.sp.val ∧ ∀ now0 rest, v.calls ≠ .reset now0 :: rest := by
  refine ⟨by decide, by decide, fun m v hm hv => ?_⟩
  obtain rfl : m = 0 := by omega
  cases hv
  exact ⟨le_refl _, fun _ _ h => by cases h⟩

theorem wit_CallThenRetComesBack_full :
    after (exec (.call 0x300) { State.reset with sp := 15 }) (fun t =>
      after (exec .ret { t with pc := 0x308 }) fun v => v.pc == 0x200 && v.sp == 15) = true := by decide

theorem wit_SkipAddsTwo :
    ({ State.reset with pc := 0xFFD } : State).pc.toNat + 2 ≤ 0xFFF ∧
    0xFFF < ({ State.reset with pc := 0xFFE } : State).pc.toNat + 2 := by decide

theorem wit_SkipsOnAByteAndARegister :
    ((start [(3, 0x42)]).getV 3).toNat = (0x42 : Byte).toNat ∧ ((start [(3, 0x42)]).getV 3).toNat ≠ (0x41 : Byte).toNat ∧
    ((start [(1, 7), (2, 7)]).getV 1).toNat = ((start [(1, 7), (2, 7)]).getV 2).toNat ∧
    ((start [(1, 7), (2, 8)]).getV 1).toNat ≠ ((start [(1, 7), (2, 8)]).getV 2).toNat := by decide

theorem wit_JpV0AddsV0 :
    (0xFFE : BitVec 12).toNat + ((start [(0, 1)]).getV 0).toNat ≤ 0xFFF ∧
    0xFFF < (0xFFF : BitVec 12).toNat + ((start [(0, 1)]).getV 0).toNat := by decide

theorem wit_AluVfOrder :
    (start []).params.aluVfOrder = .sequential ∧ (startRtf []).params.aluVfOrder = .resultThenFlag ∧
    (0 : RegIdx) ≠ VF := by decide

theorem wit_AddIVIsBounded :
    ({ start [(2, 0xF)] with I := 0xFF0 } : State).I.toNat + ((start [(2, 0xF)]).getV 2).toNat ≤ 0xFFF ∧
    0xFFF < ({ start [(2, 0x10)] with I := 0xFF0 } : State).I.toNat + ((start [(2, 0x10)]).getV 2).toNat := by decide

theorem wit_MemoryInstructionsAtTheEdge :
    ({ State.reset with I := 0xFFD } : State).I.toNat + 2 ≤ 0xFFF ∧
    0xFFF < ({ State.reset with I := 0xFFE } : State).I.toNat + 2 ∧
    ({ State.reset with I := 0xFF0 } : State).I.toNat + (15 : RegIdx).val ≤ 0xFFF ∧
    0xFFF < ({ State.reset with I := 0xFF1 } : State).I.toNat + (15 : RegIdx).val := by decide

theorem wit_LdFV :
    (start []).params.fx29MaskDigit = true ∧
    ({ State.reset with params := { Params.spec with fx29MaskDigit := false } } : State).params.fx29MaskDigit = false :=
  ⟨rfl, rfl⟩

theorem wit_SkipsOnAKey : (5 : KeyIdx).val = ((start [(0, 0x15)]).getV 0).toNat % 16 := by decide

theorem wit_LdVKWaitsForAKey :
    (∀ k : KeyIdx, State.reset.input.keys[k] = false) ∧ (holding 7).keys[(7 : KeyIdx)] = true ∧
    { holding 7 with keyDraw := 7 }.keyDraw = 7 := by decide

theorem wit_TimerStepDecrementsBoth :
    (1 / 50 : Time) - 0 > 1 / 60 ∧ (1 / 60 : Time) - 0 = 1 / 60 ∧ (1 / 100 : Time) - 0 < 1 / 60 ∧
    ({ State.reset with status := .faulted ⟨.stackUnderflow, 0x200, 0⟩ } : State).isFaulted ∧ ¬ State.reset.isFaulted := by
  refine ⟨by decide +kernel, by decide +kernel, by decide +kernel, ⟨_, rfl⟩, fun ⟨r, h⟩ => ?_⟩
  exact absurd h (by simp [State.reset, State.resetAt])

theorem wit_DelayTimerFallsByOneAtMost :
    let s := ready { State.reset with DT := 10 } 0x0000 (CycleInput.quiet (1 / 50))
    s.runsCycle (CycleInput.quiet (1 / 50)) [] ∧ s.decodedAtPc = .accept (.sys 0) ∧
    (1 / 60 : Time) < (CycleInput.quiet (1 / 50)).now - s.lastTick ∧ after (step s) (fun t => t.status == .running) = true :=
  ⟨⟨rfl, rfl, by decide +kernel⟩, by decide, by decide +kernel, by decide +kernel⟩

theorem wit_Fx15CyclesNeverDecrement :
    (ready State.reset 0xF115 (CycleInput.quiet 1)).decodedAtPc = .accept (.ldDTV 1) ∧
    (ready State.reset 0xF118 (CycleInput.quiet 1)).decodedAtPc = .accept (.ldSTV 1) ∧
    (1 / 60 : Time) < (CycleInput.quiet 1).now - State.reset.lastTick := by
  refine ⟨by decide, by decide, by decide +kernel⟩

theorem wit_FaultsHaveOnlyTheListedCauses :
    let s := ready State.reset 0x00EE (CycleInput.quiet 1)
    s.Inv ∧ s.runsCycle (CycleInput.quiet 1) [] ∧
    after (step s) (fun t => t.status == .faulted ⟨.stackUnderflow, 0x200, 0⟩) = true :=
  ⟨⟨by decide, by decide, by decide, by decide, by decide⟩, ready_runsCycle _ _ (by decide), by decide⟩

theorem wit_AFaultChangesNothingElse :
    after
      (step { State.reset with
        status := .faulted ⟨.stackUnderflow, 0x200, 0⟩
        changed := true
        calls := [.cycle (CycleInput.quiet 1)] })
      (fun t => t.status == .faulted ⟨.stackUnderflow, 0x200, 0⟩ && !t.changed) = true ∧
    (∀ now0 rest, [HostCall.cycle (CycleInput.quiet 1)] ≠ .reset now0 :: rest) :=
  ⟨by decide, fun _ _ h => by simp at h⟩

theorem wit_ASelfJumpIsForever :
    (ready State.reset 0x1200 (CycleInput.quiet 1)).atSelfJump :=
  ⟨rfl, 0x200, by unfold State.wordAtPc; decide, by decide⟩

theorem wit_AKeyWaitChangesTheTimersAlone :
    (ready State.reset 0xF30A (CycleInput.quiet 1)).atKeyWait ∧
    (∀ k : KeyIdx, (CycleInput.quiet 1).keys[k] = false) ∧ (∃ k : KeyIdx, (holding 7).keys[k] = true) :=
  ⟨⟨3, by unfold State.wordAtPc; decide⟩, by decide, by decide⟩

end Sys2Proof.Tests
end

/-! ## The parameters and the host's side (spec/00_scope.md R6; 10_state.md R30)

No statement of an instruction writes the parameters, the sampled inputs, the host's further operations or the last
Load's result. This is shown once for each shared operation that may raise, and an instruction's statements are then
composed of these. -/

namespace Sys2Proof.Machine

/-- The parameters and the host's side are in `t` as in `s`. -/
structure KeepsHost (s t : State) : Prop where
  params : t.params = s.params
  input : t.input = s.input
  calls : t.calls = s.calls
  lastLoad : t.lastLoad = s.lastLoad

theorem KeepsHost.trans {s t u : State} (hst : KeepsHost s t) (htu : KeepsHost t u) : KeepsHost s u where
  params := htu.params.trans hst.params
  input := htu.input.trans hst.input
  calls := htu.calls.trans hst.calls
  lastLoad := htu.lastLoad.trans hst.lastLoad

/-- Statements begun in `s` that raise nothing leave a state with the host's side of `s`. -/
def LeavesHost (s : State) (e : Except Raise State) : Prop := ∀ t, e = .ok t → KeepsHost s t

/-! ### Composing statements -/

theorem LeavesHost.ok {s t : State} (h : KeepsHost s t) : LeavesHost s (.ok t) := by
  rintro _ ⟨⟩
  exact h

theorem LeavesHost.error (s : State) (r : Raise) : LeavesHost s (.error r) := by
  intro t h
  cases h

/-- The statements after one that may raise count only where it did not. -/
theorem LeavesHost.bind {α : Type} {s : State} {x : Except Raise α} {f : α → Except Raise State}
    (h : ∀ a, x = .ok a → LeavesHost s (f a)) : LeavesHost s (x >>= f) := by
  cases x with
  | ok a => exact h a rfl
  | error r => exact .error s r

theorem LeavesHost.after {s t : State} {e : Except Raise State} (hst : KeepsHost s t) (h : LeavesHost t e) :
    LeavesHost s e :=
  fun u hu => hst.trans (h u hu)

/-- A fault taken keeps the host's side too (R108), so an instruction keeps it where its statements do. -/
theorem complete_keepsHost {s t : State} {e : Except Raise State} (h : complete s e = .next t)
    (he : LeavesHost s e) : KeepsHost s t := by
  cases e with
  | ok u =>
    obtain rfl := Host.Outcome.next.inj h
    exact he u rfl
  | error r =>
    obtain rfl := Host.Outcome.next.inj h
    exact ⟨rfl, rfl, rfl, rfl⟩

/-! ### The shared operations -/

theorem memWrite_leavesHost (s : State) (a : Nat) (b : Byte) : LeavesHost s (memWrite s a b) := by
  by_cases ha : a ≤ 0xFFF
  · rw [memWrite_of_le s b ha]
    exact .ok ⟨rfl, rfl, rfl, rfl⟩
  · rw [memWrite_of_gt s b (Nat.lt_of_not_le ha)]
    exact .error s _

theorem writeBytes_leavesHost (s : State) (a : Nat) (bs : List Byte) : LeavesHost s (writeBytes s a bs) := by
  induction bs generalizing s a with
  | nil => exact .ok ⟨rfl, rfl, rfl, rfl⟩
  | cons b bs ih => exact .bind fun u hu => .after (memWrite_leavesHost s a b u hu) (ih u (a + 1))

theorem writePc_leavesHost (s : State) (a : Nat) : LeavesHost s (writePc s a) := by
  by_cases ha : a ≤ 0xFFF
  · rw [writePc_of_le s ha]
    exact .ok ⟨rfl, rfl, rfl, rfl⟩
  · rw [writePc_of_gt s (Nat.lt_of_not_le ha)]
    exact .error s _

theorem writeI_leavesHost (s : State) (a : Nat) : LeavesHost s (writeI s a) := by
  by_cases ha : a ≤ 0xFFF
  · rw [writeI_of_le s ha]
    exact .ok ⟨rfl, rfl, rfl, rfl⟩
  · rw [writeI_of_gt s (Nat.lt_of_not_le ha)]
    exact .error s _

theorem skipIf_leavesHost (s : State) (c : Bool) : LeavesHost s (skipIf s c) := by
  cases c with
  | true => exact writePc_leavesHost s (s.pc.toNat + 2)
  | false => exact .ok ⟨rfl, rfl, rfl, rfl⟩

theorem push_leavesHost (s : State) (a : Word) : LeavesHost s (push s a) := by
  by_cases hsp : s.sp.val < 16
  · rw [push_of_lt s a hsp]
    exact .ok ⟨rfl, rfl, rfl, rfl⟩
  · rw [push_of_full s a (by omega)]
    exact .error s _

theorem pop_keepsHost {s u : State} {a : Word} (h : pop s = .ok (a, u)) : KeepsHost s u := by
  by_cases hsp : 0 < s.sp.val
  · rw [pop_of_pos s hsp] at h
    cases h
    exact ⟨rfl, rfl, rfl, rfl⟩
  · rw [pop_of_empty s (by omega)] at h
    cases h

theorem loadRegs_keepsHost (s : State) (k : Nat) (bs : List Byte) : KeepsHost s (s.loadRegs k bs) := by
  rw [(s.loadRegs_spec k bs).1]
  exact ⟨rfl, rfl, rfl, rfl⟩

theorem writeFlagAndResult_keepsHost (s : State) (x y : RegIdx) (f g : Byte → Byte → Byte) :
    KeepsHost s (s.writeFlagAndResult x y f g) := by
  rw [s.writeFlagAndResult_frame x y f g]
  exact ⟨rfl, rfl, rfl, rfl⟩

theorem writeCarryAndSum_keepsHost (s : State) (x y : RegIdx) : KeepsHost s (s.writeCarryAndSum x y) := by
  rw [s.writeCarryAndSum_frame x y]
  exact ⟨rfl, rfl, rfl, rfl⟩

/-! ### Instructions -/

/-- Every instruction keeps the parameters and the host's side. -/
theorem exec_keepsHost {i : Instr} {s t : State} (h : exec i s = .next t) : KeepsHost s t := by
  cases i with
  | cls | sys _ | jp _ | ldVB _ _ | addVB _ _ | ldVV _ _ | orVV _ _ | andVV _ _ | xorVV _ _ | ldI _ | rnd _ _ | ldVDT _
  | ldDTV _ | ldSTV _ | ldFV _ =>
    obtain rfl := Host.Outcome.next.inj h
    exact ⟨rfl, rfl, rfl, rfl⟩
  | seVB _ _ | sneVB _ _ | seVV _ _ | sneVV _ _ | skp _ | sknp _ => exact complete_keepsHost h (skipIf_leavesHost s _)
  | sub _ _ | shr _ _ | subn _ _ | shl _ _ =>
    obtain rfl := Host.Outcome.next.inj h
    exact writeFlagAndResult_keepsHost s _ _ _ _
  | addVV x y =>
    obtain rfl := Host.Outcome.next.inj h
    exact writeCarryAndSum_keepsHost s x y
  | jpV0 _ => exact complete_keepsHost h (writePc_leavesHost s _)
  | addIV _ => exact complete_keepsHost h (writeI_leavesHost s _)
  | ret => exact complete_keepsHost h (.bind fun _ hp => .ok ((pop_keepsHost hp).trans ⟨rfl, rfl, rfl, rfl⟩))
  | call _ =>
    exact complete_keepsHost h (.bind fun u hu => .ok ((push_leavesHost s s.pc u hu).trans ⟨rfl, rfl, rfl, rfl⟩))
  | drw _ _ _ => exact complete_keepsHost h (.bind fun _ _ => .ok ⟨rfl, rfl, rfl, rfl⟩)
  | ldVK x =>
    refine complete_keepsHost h ?_
    split
    · exact .ok ⟨rfl, rfl, rfl, rfl⟩
    · exact .ok ⟨rfl, rfl, rfl, rfl⟩
  | ldBV _ | ldMemV _ => exact complete_keepsHost h (.bind fun _ _ => writeBytes_leavesHost s _ _)
  | ldVMem _ => exact complete_keepsHost h (.bind fun _ _ => .bind fun bytes _ => .ok (loadRegs_keepsHost s 0 bytes))

/-! ### Steps -/

@[simp] theorem State.endCycle_params (s : State) : s.endCycle.params = s.params := by
  rcases s.endCycle_cases with h | h <;> rw [h]
  exact s.timerStep_params

theorem State.placeBytes_params (s : State) (a : Nat) (bs : List Byte) : (s.placeBytes a bs).params = s.params := by
  rw [(s.placeBytes_spec a bs).1]

/-- A Load, accepted, failed or refused, keeps the parameters. -/
@[simp] theorem State.performLoad_params (s : State) (image : List Byte) :
    (s.performLoad image).params = s.params := by
  unfold State.performLoad
  split
  · split
    · rfl
    · exact s.placeBytes_params _ image
  · rfl
  · rfl

theorem fetchAndAdvance_params {s u : State} {d : Decoded} (h : fetchAndAdvance s = .ok (d, u)) :
    u.params = s.params := by
  obtain ⟨-, rfl, -⟩ := fetchAndAdvance_ok h
  rfl

theorem cycle_params {input : CycleInput} {s t : State} (h : cycle input s = .next t) : t.params = s.params := by
  obtain ⟨-, rfl⟩ | ⟨-, -, ⟨r, -, rfl⟩ | ⟨why, u, hu, rfl⟩ | ⟨i, u, v, hu, hv, rfl⟩⟩ := cycle_cases h
  · rfl
  · rfl
  · calc u.endCycle.params
      _ = u.params := u.endCycle_params
      _ = (s.beginCycle input).params := fetchAndAdvance_params hu
      _ = s.params := s.beginCycle_params input
  · calc v.endCycle.params
      _ = v.params := v.endCycle_params
      _ = u.params := (exec_keepsHost hv).params
      _ = (s.beginCycle input).params := fetchAndAdvance_params hu
      _ = s.params := s.beginCycle_params input

theorem step_params {s t : State} (h : step s = .next t) : t.params = s.params := by
  obtain ⟨-, rfl⟩ | ⟨now0, rest, -, rfl⟩ | ⟨image, rest, -, rfl⟩ | ⟨rest, -, rfl⟩ | ⟨input, rest, -, hc⟩ := step_cases h
  · rfl
  · rfl
  · exact State.performLoad_params _ image
  · rfl
  · exact cycle_params (s := { s with calls := rest }) hc

/-- Settles O9: a step's parameters through each operation of the host, and an instruction's host side through the
operations its statements share. -/
theorem parametersAreFixed : Obligations.ParametersAreFixed := by
  refine ⟨fun s t h => step_params h, fun i s t h => ?_⟩
  obtain ⟨hparams, hinput, hcalls, hload⟩ := exec_keepsHost h
  exact ⟨hparams, hinput, hcalls, hload⟩

end Sys2Proof.Machine

/-! ## What an instruction can do (spec/10_state.md R18)

The effect of an instruction is said once, by the part of the state it writes. What every instruction may change (R18)
and that it keeps the invariant (R33) are then read off from the few kinds of effect. -/

namespace Sys2Proof.Machine

/-- The addresses an instruction may store to (R18, R39): Fx33 at I to I + 2 and Fx55 at I to I + x. -/
def MayStore (i : Instr) (s : State) (a : Nat) : Prop :=
  (∃ x, i = .ldBV x ∧ s.I.toNat ≤ a ∧ a ≤ s.I.toNat + 2) ∨
    ∃ x : RegIdx, i = .ldMemV x ∧ s.I.toNat ≤ a ∧ a ≤ s.I.toNat + x.val

/-- The state in which the instruction `i`, run in `s`, may end: the fault taken, or `s` with one part of it written. -/
inductive Effect (i : Instr) (s : State) : State → Prop where
  | faulted (r : Raise) : Effect i s (s.takeFault s.instrAddr r)
  | registers {V : Vector Byte 16} (hV : ∀ k : RegIdx, V[k] ≠ s.V[k] → MayWriteV i k) : Effect i s { s with V := V }
  /-- A jump or a skip. -/
  | jumped {a : Word} (ha : a.toNat ≤ 0xFFF) : Effect i s { s with pc := a }
  /-- Fx0A without a key: pc is back at the instruction (R104). -/
  | waited : Effect i s { s with pc := s.pc - 2 }
  | called {nnn : BitVec 12} (hi : i = .call nnn) (hsp : s.sp.val < 16) :
      Effect i s { s with
        stack := s.stack.set s.sp.val s.pc, sp := ⟨s.sp.val + 1, Nat.succ_lt_succ hsp⟩, pc := zext16 nnn }
  | returned {k : Fin 16} (hi : i = .ret) (hk : s.sp.val = k.val + 1) :
      Effect i s { s with sp := k.castSucc, pc := s.stack[k] }
  | indexed {a : Word} (hi : (∃ nnn, i = .ldI nnn) ∨ (∃ x, i = .addIV x) ∨ ∃ x, i = .ldFV x) (ha : a.toNat ≤ 0xFFF) :
      Effect i s { s with I := a }
  | drawn {V : Vector Byte 16} {fb : Framebuffer} {changed : Bool} (hi : i = .cls ∨ ∃ x y n, i = .drw x y n)
      (hV : ∀ k : RegIdx, V[k] ≠ s.V[k] → MayWriteV i k) : Effect i s { s with V := V, fb := fb, changed := changed }
  | delayTimer {x : RegIdx} (hi : i = .ldDTV x) : Effect i s { s with DT := s.getV x, lastTick := s.input.now }
  | soundTimer {x : RegIdx} (hi : i = .ldSTV x) : Effect i s { s with ST := s.getV x }
  | stored {m : Memory} (hb : ∀ a, ({ s with mem := m } : State).byteAt a ≠ s.byteAt a → MayStore i s a)
      (hwf : Memory.wf s.params.font s.mem → Memory.wf s.params.font m) : Effect i s { s with mem := m }

/-! ### What the shared operations leave where they raise nothing -/

theorem bind_eq_ok {α β : Type} {x : Except Raise α} {f : α → Except Raise β} {b : β} (h : x >>= f = .ok b) :
    ∃ a, x = .ok a ∧ f a = .ok b := by
  cases x with
  | ok a => exact ⟨a, rfl, h⟩
  | error r => cases h

theorem writePc_ok {s t : State} {a : Nat} (h : writePc s a = .ok t) :
    a ≤ 0xFFF ∧ t = { s with pc := BitVec.ofNat 16 a } := by
  by_cases ha : a ≤ 0xFFF
  · rw [writePc_of_le s ha] at h
    exact ⟨ha, (Except.ok.inj h).symm⟩
  · rw [writePc_of_gt s (Nat.lt_of_not_le ha)] at h
    cases h

theorem writeI_ok {s t : State} {a : Nat} (h : writeI s a = .ok t) :
    a ≤ 0xFFF ∧ t = { s with I := BitVec.ofNat 16 a } := by
  by_cases ha : a ≤ 0xFFF
  · rw [writeI_of_le s ha] at h
    exact ⟨ha, (Except.ok.inj h).symm⟩
  · rw [writeI_of_gt s (Nat.lt_of_not_le ha)] at h
    cases h

theorem push_ok {s t : State} {a : Word} (h : push s a = .ok t) :
    ∃ hsp : s.sp.val < 16,
      t = { s with stack := s.stack.set s.sp.val a, sp := ⟨s.sp.val + 1, Nat.succ_lt_succ hsp⟩ } := by
  by_cases hsp : s.sp.val < 16
  · rw [push_of_lt s a hsp] at h
    exact ⟨hsp, (Except.ok.inj h).symm⟩
  · rw [push_of_full s a (by omega)] at h
    cases h

theorem pop_ok {s t : State} {a : Word} (h : pop s = .ok (a, t)) :
    ∃ k : Fin 16, s.sp.val = k.val + 1 ∧ a = s.stack[k] ∧ t = { s with sp := k.castSucc } := by
  by_cases hsp : 0 < s.sp.val
  · rw [pop_of_pos s hsp] at h
    cases h
    exact ⟨⟨s.sp.val - 1, by omega⟩, (Nat.succ_pred_eq_of_pos hsp).symm, rfl, rfl⟩
  · rw [pop_of_empty s (by omega)] at h
    cases h

/-- Stores whose last address was checked change memory alone, and only from their first address to their last. -/
theorem checkLast_writeBytes_ok {s t : State} {a last : Nat} {bs : List Byte} (hlast : a + bs.length = last + 1)
    (h : (do checkLast last; writeBytes s a bs) = .ok t) :
    t = { s with mem := t.mem } ∧ (∀ b, t.byteAt b ≠ s.byteAt b → a ≤ b ∧ b ≤ last) ∧
      (Memory.wf s.params.font s.mem → Memory.wf s.params.font t.mem) := by
  obtain ⟨_, hcheck, h⟩ := bind_eq_ok h
  have hle : last ≤ 0xFFF := by
    by_contra hgt
    rw [checkLast_of_gt (Nat.lt_of_not_le hgt)] at hcheck
    cases hcheck
  obtain ⟨u, hu, hrest, hbytes, hwf⟩ := writeBytes_of_le s bs (a := a) (.inr (by omega))
  obtain rfl : u = t := Except.ok.inj (hu.symm.trans h)
  refine ⟨hrest, fun b hb => ?_, hwf⟩
  by_contra hout
  exact hb (by rw [hbytes b, dif_neg (by omega)])

theorem readBytes_length {s : State} {a n : Nat} {bs : List Byte} (h : readBytes s a n = .ok bs) : bs.length = n := by
  by_cases hn : n = 0 ∨ a + n ≤ 0x1000
  · rw [readBytes_of_le s hn] at h
    obtain rfl := Except.ok.inj h
    simp
  · rw [readBytes_of_gt s (by omega) (by omega)] at h
    cases h

theorem ofNat_le {a : Nat} (ha : a ≤ 0xFFF) : (BitVec.ofNat 16 a).toNat ≤ 0xFFF := (Nat.mod_le a _).trans ha

theorem zext16_le (nnn : BitVec 12) : (zext16 nnn).toNat ≤ 0xFFF := by
  rw [zext16_toNat]
  exact Nat.le_of_lt_succ nnn.isLt

theorem State.eq_of_getV_setV_ne {s : State} {x k : RegIdx} {b : Byte} (h : (s.setV x b).getV k ≠ s.getV k) :
    k = x := by
  by_contra hkx
  exact h (by simp [hkx])

theorem State.writeFlagAndResult_getV_other (s : State) {x k : RegIdx} (y : RegIdx) (f g : Byte → Byte → Byte)
    (hx : k ≠ x) (hF : k ≠ VF) : (s.writeFlagAndResult x y f g).getV k = s.getV k := by
  cases ho : s.params.aluVfOrder with
  | sequential => simp [s.writeFlagAndResult_sequential x y f g ho, hx, hF]
  | resultThenFlag => simp [s.writeFlagAndResult_resultThenFlag x y f g ho, hx, hF]

theorem State.writeCarryAndSum_getV_other (s : State) {x k : RegIdx} (y : RegIdx) (hx : k ≠ x) (hF : k ≠ VF) :
    (s.writeCarryAndSum x y).getV k = s.getV k := by
  rw [State.writeCarryAndSum_getV]
  split <;> simp [hx, hF]

/-! ### From the operations to the effects -/

namespace Effect

variable {i : Instr} {s t : State}

/-- An instruction's statements need be followed only to where none has raised. -/
theorem of_complete {e : Except Raise State} (h : complete s e = .next t) (he : ∀ u, e = .ok u → Effect i s u) :
    Effect i s t := by
  obtain ⟨u, rfl, hu⟩ | ⟨r, -, hr⟩ := complete_cases s e
  · obtain rfl : u = t := Host.Outcome.next.inj (hu.symm.trans h)
    exact he u rfl
  · obtain rfl := Host.Outcome.next.inj (hr.symm.trans h)
    exact .faulted r

theorem unchanged : Effect i s s := .registers (V := s.V) fun _ hk => absurd rfl hk

theorem of_only_V (ht : t = { s with V := t.V }) (hV : ∀ k, t.getV k ≠ s.getV k → MayWriteV i k) : Effect i s t := by
  rw [ht]
  exact .registers hV

theorem setV {x : RegIdx} {b : Byte} (hx : MayWriteV i x) : Effect i s (s.setV x b) :=
  of_only_V rfl fun _ hk => State.eq_of_getV_setV_ne hk ▸ hx

theorem writeFlagAndResult {x y : RegIdx} {f g : Byte → Byte → Byte} (hi : ∀ k, k = x ∨ k = VF → MayWriteV i k) :
    Effect i s (s.writeFlagAndResult x y f g) :=
  of_only_V (s.writeFlagAndResult_frame x y f g) fun k hk => hi k <| by
    by_contra hout
    exact hk (s.writeFlagAndResult_getV_other y f g (fun h => hout (.inl h)) fun h => hout (.inr h))

theorem writeCarryAndSum {x y : RegIdx} (hi : ∀ k, k = x ∨ k = VF → MayWriteV i k) :
    Effect i s (s.writeCarryAndSum x y) :=
  of_only_V (s.writeCarryAndSum_frame x y) fun k hk => hi k <| by
    by_contra hout
    exact hk (s.writeCarryAndSum_getV_other y (fun h => hout (.inl h)) fun h => hout (.inr h))

theorem writePc {a : Nat} (h : writePc s a = .ok t) : Effect i s t := by
  obtain ⟨ha, rfl⟩ := writePc_ok h
  exact .jumped (ofNat_le ha)

theorem skipIf {c : Bool} (h : skipIf s c = .ok t) : Effect i s t := by
  cases c with
  | true => exact writePc h
  | false =>
    obtain rfl := Except.ok.inj h
    exact unchanged

theorem checkLast_writeBytes {last : Nat} {bs : List Byte} (hlast : s.I.toNat + bs.length = last + 1)
    (hi : ∀ a, s.I.toNat ≤ a ∧ a ≤ last → MayStore i s a)
    (h : (do checkLast last; writeBytes s s.I.toNat bs) = .ok t) : Effect i s t := by
  obtain ⟨ht, hbytes, hwf⟩ := checkLast_writeBytes_ok hlast h
  rw [ht] at hbytes ⊢
  exact .stored (fun a ha => hi a (hbytes a ha)) hwf

/-- Fx65 writes V0 to Vx (R99). -/
theorem loadRegs {x : RegIdx} {bs : List Byte} (hbs : bs.length = x.val + 1) :
    Effect (.ldVMem x) s (s.loadRegs 0 bs) := by
  obtain ⟨hframe, hV⟩ := s.loadRegs_spec 0 bs
  refine of_only_V hframe fun k hk => ?_
  by_contra hgt
  have : ¬ k.val ≤ x.val := hgt
  exact hk (by rw [hV k, dif_neg (by omega)])

end Effect

/-- Which part of the state an instruction may write, and within which bounds. -/
theorem exec_effect {i : Instr} {s t : State} (h : exec i s = .next t) : Effect i s t := by
  cases i with
  | sys _ =>
    obtain rfl := Host.Outcome.next.inj h
    exact .unchanged
  | ldVB _ _ | addVB _ _ | ldVV _ _ | orVV _ _ | andVV _ _ | xorVV _ _ | rnd _ _ | ldVDT _ =>
    obtain rfl := Host.Outcome.next.inj h
    exact .setV rfl
  | sub _ _ | shr _ _ | subn _ _ | shl _ _ =>
    obtain rfl := Host.Outcome.next.inj h
    exact .writeFlagAndResult fun _ hk => hk
  | addVV _ _ =>
    obtain rfl := Host.Outcome.next.inj h
    exact .writeCarryAndSum fun _ hk => hk
  | seVB _ _ | sneVB _ _ | seVV _ _ | sneVV _ _ | skp _ | sknp _ => exact .of_complete h fun _ hu => .skipIf hu
  | jpV0 _ => exact .of_complete h fun _ hu => .writePc hu
  | jp nnn =>
    obtain rfl := Host.Outcome.next.inj h
    exact .jumped (zext16_le nnn)
  | ret =>
    refine .of_complete h fun u hu => ?_
    obtain ⟨⟨a, v⟩, hpop, hu⟩ := bind_eq_ok hu
    obtain ⟨k, hk, rfl, rfl⟩ := pop_ok hpop
    obtain rfl := Except.ok.inj hu
    exact .returned rfl hk
  | call nnn =>
    refine .of_complete h fun u hu => ?_
    obtain ⟨v, hpush, hu⟩ := bind_eq_ok hu
    obtain ⟨hsp, rfl⟩ := push_ok hpush
    obtain rfl := Except.ok.inj hu
    exact .called rfl hsp
  | cls =>
    obtain rfl := Host.Outcome.next.inj h
    exact .drawn (V := s.V) (.inl rfl) fun _ hk => absurd rfl hk
  | drw x y n =>
    refine .of_complete h fun u hu => ?_
    obtain ⟨bytes, -, hu⟩ := bind_eq_ok hu
    obtain rfl := Except.ok.inj hu
    exact .drawn (.inr ⟨x, y, n, rfl⟩) fun _ hk => State.eq_of_getV_setV_ne hk
  | ldI nnn =>
    obtain rfl := Host.Outcome.next.inj h
    exact .indexed (.inl ⟨nnn, rfl⟩) (zext16_le nnn)
  | addIV x =>
    refine .of_complete h fun u hu => ?_
    obtain ⟨ha, rfl⟩ := writeI_ok hu
    exact .indexed (.inr (.inl ⟨x, rfl⟩)) (ofNat_le ha)
  | ldFV x =>
    obtain rfl := Host.Outcome.next.inj h
    exact .indexed (.inr (.inr ⟨x, rfl⟩)) (glyphAddr_le _ _)
  | ldVK x =>
    refine .of_complete h fun u hu => ?_
    split at hu
    · obtain rfl := Except.ok.inj hu
      exact .waited
    · obtain rfl := Except.ok.inj hu
      exact .setV rfl
  | ldDTV _ =>
    obtain rfl := Host.Outcome.next.inj h
    exact .delayTimer rfl
  | ldSTV _ =>
    obtain rfl := Host.Outcome.next.inj h
    exact .soundTimer rfl
  | ldBV x => exact .of_complete h fun _ hu => .checkLast_writeBytes rfl (fun _ ha => .inl ⟨x, rfl, ha⟩) hu
  | ldMemV x =>
    exact .of_complete h fun _ hu =>
      .checkLast_writeBytes (by simp [Nat.add_assoc]) (fun _ ha => .inr ⟨x, rfl, ha⟩) hu
  | ldVMem _ =>
    refine .of_complete h fun u hu => ?_
    obtain ⟨_, -, hu⟩ := bind_eq_ok hu
    obtain ⟨bytes, hbytes, hu⟩ := bind_eq_ok hu
    obtain rfl := Except.ok.inj hu
    exact .loadRegs (readBytes_length hbytes)

end Sys2Proof.Machine

/-! ## What an instruction may change (spec/10_state.md R17, R18) -/

namespace Sys2Proof.Machine

namespace Effect

variable {i : Instr} {s t : State}

theorem fb_ne (h : Effect i s t) (hne : t.fb ≠ s.fb) : i = .cls ∨ ∃ x y n, i = .drw x y n := by
  cases h with
  | drawn hi hV => exact hi
  | _ => exact absurd rfl hne

theorem changed_ne (h : Effect i s t) (hne : t.changed ≠ s.changed) :
    i = .cls ∨ (∃ x y n, i = .drw x y n) ∨ t.isFaulted := by
  cases h with
  | faulted r => exact .inr (.inr ⟨_, rfl⟩)
  | drawn hi hV => exact hi.imp_right .inl
  | _ => exact absurd rfl hne

theorem I_ne (h : Effect i s t) (hne : t.I ≠ s.I) :
    (∃ nnn, i = .ldI nnn) ∨ (∃ x, i = .addIV x) ∨ ∃ x, i = .ldFV x := by
  cases h with
  | indexed hi ha => exact hi
  | _ => exact absurd rfl hne

theorem stack_ne (h : Effect i s t) {k : Fin 16} (hne : t.stack[k] ≠ s.stack[k]) :
    (∃ nnn, i = .call nnn) ∧ k.val = s.sp.val := by
  cases h with
  | called hi hsp =>
    refine ⟨⟨_, hi⟩, ?_⟩
    by_contra hk
    exact hne (Vector.getElem_set_ne hsp k.isLt (Ne.symm hk))
  | _ => exact absurd rfl hne

theorem sp_ne (h : Effect i s t) (hne : t.sp ≠ s.sp) : i = .ret ∨ ∃ nnn, i = .call nnn := by
  cases h with
  | returned hi hk => exact .inl hi
  | called hi hsp => exact .inr ⟨_, hi⟩
  | _ => exact absurd rfl hne

theorem DT_ne (h : Effect i s t) (hne : t.DT ≠ s.DT) : ∃ x, i = .ldDTV x := by
  cases h with
  | delayTimer hi => exact ⟨_, hi⟩
  | _ => exact absurd rfl hne

theorem lastTick_ne (h : Effect i s t) (hne : t.lastTick ≠ s.lastTick) : ∃ x, i = .ldDTV x := by
  cases h with
  | delayTimer hi => exact ⟨_, hi⟩
  | _ => exact absurd rfl hne

theorem ST_ne (h : Effect i s t) (hne : t.ST ≠ s.ST) : ∃ x, i = .ldSTV x := by
  cases h with
  | soundTimer hi => exact ⟨_, hi⟩
  | _ => exact absurd rfl hne

theorem byteAt_ne (h : Effect i s t) {a : Nat} (hne : t.byteAt a ≠ s.byteAt a) : MayStore i s a := by
  cases h with
  | stored hb hwf => exact hb a hne
  | _ => exact absurd rfl hne

theorem status_ne (h : Effect i s t) (hne : t.status ≠ s.status) : t.isFaulted := by
  cases h with
  | faulted r => exact ⟨_, rfl⟩
  | _ => exact absurd rfl hne

theorem getV_ne (h : Effect i s t) {k : RegIdx} (hne : t.getV k ≠ s.getV k) : MayWriteV i k := by
  cases h with
  | registers hV => exact hV k hne
  | drawn hi hV => exact hV k hne
  | _ => exact absurd rfl hne

end Effect

/-- Settles O10: each part of the state is changed by the effects that write it, and these say of which instructions
they are. -/
theorem instructionsWriteOnlyTheirState : Obligations.InstructionsWriteOnlyTheirState := fun _ _ _ h =>
  have e := exec_effect h
  ⟨e.fb_ne, e.changed_ne, e.I_ne, fun _ => e.stack_ne, e.sp_ne, e.DT_ne, e.lastTick_ne, e.ST_ne,
    fun _ => e.byteAt_ne, e.status_ne⟩

/-- Settles O11: a general register is changed by the effects on registers and by drawing alone. -/
theorem instructionsWriteOnlyTheirRegisters : Obligations.InstructionsWriteOnlyTheirRegisters :=
  fun _ _ _ _ h => (exec_effect h).getV_ne

/-! ## The invariant (spec/10_state.md R33)

An update of the state keeps every clause that does not read what it writes: `{ h with … }` names the clauses that do. -/

theorem State.resetAt_inv (p : Params) (now0 : Time) : (State.resetAt p now0).Inv where
  mem_wf := Memory.wf_nil p.font
  pc_le := by simp [State.resetAt]
  I_le := by simp [State.resetAt]
  stack_le k := by simp [State.resetAt]
  lastTick_le := le_rfl

/-- Settles O2; `State.reset` is the state of one such Reset. -/
theorem resetMeetsTheInvariant : Obligations.ResetMeetsTheInvariant :=
  ⟨State.resetAt_inv Params.spec 0, State.resetAt_inv⟩

theorem State.timerStep_inv {s : State} (h : s.Inv) : s.timerStep.Inv := by
  unfold State.timerStep
  split
  · exact { h with lastTick_le := le_rfl }
  · exact h

theorem State.endCycle_inv {s : State} (h : s.Inv) : s.endCycle.Inv := by
  rcases s.endCycle_cases with hend | hend <;> rw [hend]
  · exact h
  · exact State.timerStep_inv h

theorem State.performLoad_inv {s : State} (h : s.Inv) (image : List Byte) : (s.performLoad image).Inv := by
  unfold State.performLoad
  split
  · split
    · exact { h with }
    · next hlen =>
      obtain ⟨hframe, -, hwf⟩ := s.placeBytes_spec Config.programBase image
      rw [hframe]
      have hend : Config.programBase + image.length ≤ 0x1000 := by
        simp only [Config.programBase, Config.programMax] at hlen ⊢
        omega
      exact { h with mem_wf := hwf hend h.mem_wf }
  · exact { h with }
  · exact { h with }

/-- An instruction keeps the invariant, given that its own address, to which a fault or a wait returns, lies in
memory. -/
theorem Effect.keeps_inv {i : Instr} {s t : State} (e : Effect i s t) (h : s.Inv) (haddr : s.instrAddr.toNat ≤ 0xFFF) :
    t.Inv := by
  cases e with
  | faulted _ | waited => exact { h with pc_le := haddr }
  | registers _ | drawn _ _ | soundTimer _ => exact { h with }
  | jumped ha => exact { h with pc_le := ha }
  | called hi hsp =>
    refine { h with pc_le := zext16_le _, stack_le := fun k => ?_ }
    by_cases hk : s.sp.val = k.val
    · simpa [hk] using h.pc_le
    · simpa [hk] using h.stack_le k
  | @returned k hi hk => exact { h with pc_le := h.stack_le k }
  | indexed hi ha => exact { h with I_le := ha }
  | delayTimer hi => exact { h with lastTick_le := le_rfl }
  | stored hb hwf => exact { h with mem_wf := hwf h.mem_wf }

theorem State.beginCycle_inv {s : State} {input : CycleInput} (h : s.Inv) (hnow : s.input.now ≤ input.now) :
    (s.beginCycle input).Inv :=
  { h with lastTick_le := h.lastTick_le.trans hnow }

/-- After the advance pc is in memory, and so is the address of the instruction fetched. -/
theorem fetchAndAdvance_inv {s u : State} {d : Decoded} (h : s.Inv) (hf : fetchAndAdvance s = .ok (d, u)) :
    u.Inv ∧ u.instrAddr.toNat ≤ 0xFFF := by
  obtain ⟨hle, rfl, -⟩ := fetchAndAdvance_ok hf
  refine ⟨{ h with pc_le := ?_ }, ?_⟩
  · show (s.pc + 2).toNat ≤ 0xFFF
    bv_omega
  · simpa [State.instrAddr] using h.pc_le

theorem cycle_keeps_inv {input : CycleInput} {s t : State} (h : s.Inv) (hc : cycle input s = .next t) : t.Inv := by
  obtain ⟨-, rfl⟩ | ⟨-, hnow, hcases⟩ := cycle_cases hc
  · exact { h with }
  · have hbegin : (s.beginCycle input).Inv := State.beginCycle_inv h (not_lt.mp hnow)
    obtain ⟨r, -, rfl⟩ | ⟨why, u, hf, rfl⟩ | ⟨i, u, v, hf, hexec, rfl⟩ := hcases
    · exact { hbegin with }
    · exact State.endCycle_inv (fetchAndAdvance_inv hbegin hf).1
    · obtain ⟨hu, haddr⟩ := fetchAndAdvance_inv hbegin hf
      exact State.endCycle_inv ((exec_effect hexec).keeps_inv hu haddr)

/-- Settles O3, through each operation of the host, and in a cycle through the effect of its instruction. -/
theorem everyStepKeepsTheInvariant : Obligations.EveryStepKeepsTheInvariant := by
  intro s t h hstep
  have hcalls : ∀ rest, ({ s with calls := rest } : State).Inv := fun _ => { h with }
  obtain ⟨-, rfl⟩ | ⟨now0, rest, -, rfl⟩ | ⟨image, rest, -, rfl⟩ | ⟨rest, -, rfl⟩ | ⟨input, rest, -, hc⟩ :=
    step_cases hstep
  · exact h
  · exact { State.resetAt_inv s.params now0 with }
  · exact State.performLoad_inv (hcalls rest) image
  · exact { h with }
  · exact cycle_keeps_inv (hcalls rest) hc

/-! ### Sessions -/

theorem core_run_succ_cases {s t : State} {n : Nat} (h : Sys2Proof.core.run (n + 1) s = .next t) :
    ∃ u, step s = .next u ∧ Sys2Proof.core.run n u = .next t := by
  cases hs : step s with
  | next u => exact ⟨u, rfl, (core_run_succ n hs).symm.trans h⟩
  | fault f => cases f
  | refused r =>
    simp only [Host.Core.run, show Sys2Proof.core.step s = .refused r from hs] at h
    cases h

/-- What holds in the first state of a run and is kept by every step holds in every state the run reaches. -/
theorem core_run_induction {P : State → Prop} (hstep : ∀ s t, P s → step s = .next t → P t) {n : Nat} {s t : State}
    (hs : P s) (h : Sys2Proof.core.run n s = .next t) : P t := by
  induction n generalizing s with
  | zero => exact Host.Outcome.next.inj h ▸ hs
  | succ n ih =>
    obtain ⟨u, hu, hrun⟩ := core_run_succ_cases h
    exact ih (hstep s u hs hu) hrun

/-- Settles O4: the invariant holds after reset and every step keeps it; the other ranges are those of the fields'
types. -/
theorem reachableStatesStayInRange : Obligations.ReachableStatesStayInRange := by
  intro p now0 calls n t hrun
  have hreset : ({ State.resetAt p now0 with calls := calls } : State).Inv := { State.resetAt_inv p now0 with }
  have h : t.Inv := core_run_induction everyStepKeepsTheInvariant hreset hrun
  have byte_le (b : Byte) : b.toNat ≤ 255 := Nat.le_of_lt_succ b.isLt
  exact ⟨h.pc_le, h.I_le, Nat.le_of_lt_succ t.sp.isLt, h.stack_le, fun k => byte_le (t.getV k), byte_le t.DT,
    byte_le t.ST, fun r c => Bool.eq_false_or_eq_true _, h.lastTick_le⟩

/-! ## Reset and the call stack (spec/10_state.md R21, R32) -/

/-- The font's bytes lie where R42 places them. -/
theorem Memory.background_font (font : Vector Byte 80) (k : Fin 80) :
    Memory.background font (0x050 + k.val) = font[k] := by
  have hk := k.isLt
  unfold Memory.background
  rw [dif_pos (by omega)]
  simp

theorem Memory.background_outside (font : Vector Byte 80) {a : Nat} (ha : a < 0x050 ∨ 0x0A0 ≤ a) :
    Memory.background font a = 0 :=
  dif_neg (by omega)

theorem step_of_calls {s : State} {call : HostCall} {rest : List HostCall} (h : s.calls = call :: rest) :
    step s = perform call { s with calls := rest } := by
  simp only [step, h]

/-- Settles O1: memory after a Reset is the background alone, and the other fields are as constructed. -/
theorem resetGivesTheTableOfR32 : Obligations.ResetGivesTheTableOfR32 := by
  intro s now0 rest hcalls
  refine ⟨{ State.resetAt s.params now0 with calls := rest }, step_of_calls hcalls, fun k => ?font, fun a ha => ?zero,
    fun k => ?registers, rfl, rfl, rfl, fun k => ?stack, rfl, rfl, rfl, fun r c => ?pixels, rfl, rfl, rfl⟩
  case font => exact Memory.background_font s.params.font k
  case zero => exact Memory.background_outside s.params.font ha
  case registers => simp [State.resetAt, State.getV]
  case stack => simp [State.resetAt]
  case pixels => simp [State.resetAt, Framebuffer.pixel]

/-- Settles O12, from what each of the two operations does at each depth. -/
theorem pushAndPop : Obligations.PushAndPop := by
  refine ⟨fun s a hsp => ⟨_, push_of_lt s a hsp, rfl, fun k => ?_, rfl⟩, push_of_full, fun s k hk => ?_, pop_of_empty⟩
  · by_cases hk : k.val = s.sp.val
    · simp [hk]
    · simp [hk, Ne.symm hk]
  · refine ⟨{ s with sp := k.castSucc }, ?_, rfl, rfl⟩
    simp only [pop_of_pos s (by omega), hk]
    rfl

end Sys2Proof.Machine

/-! ## Nothing reads the sound timer (spec/10_state.md R23; 60_exceptions.md R120)

Each operation commutes with another value of ST: begun with it, the operation raises the same and leaves the same but
for ST. Fx18, which sets ST, leaves the same state under both values. -/

namespace Sys2Proof.Machine

/-- The state with another value of ST. -/
def State.withST (s : State) (b : Byte) : State := { s with ST := b }

section
variable (s : State) (b : Byte)

@[simp] theorem State.withST_status : (s.withST b).status = s.status := rfl

/-! ### Statements in sequence -/

/-- Where each of two statements commutes with a change of what it works on, so do the two in sequence. -/
theorem bind_eq_map {α β : Type} {x x' : Except Raise α} {f f' : α → Except Raise β} {g : α → α} {g' : β → β}
    (hx : x' = x.map g) (hf : ∀ a, f' (g a) = (f a).map g') : x' >>= f' = (x >>= f).map g' := by
  subst hx
  cases x with
  | ok a => exact hf a
  | error r => rfl

/-- The same where the first statement only reads. -/
theorem bind_eq_map_of_read {α β : Type} {x x' : Except Raise α} {f f' : α → Except Raise β} {g : β → β}
    (hx : x' = x) (hf : ∀ a, f' a = (f a).map g) : x' >>= f' = (x >>= f).map g := by
  subst hx
  cases x' with
  | ok a => exact hf a
  | error r => rfl

/-! ### The shared operations -/

theorem memWrite_withST (a : Nat) (v : Byte) : memWrite (s.withST b) a v = (memWrite s a v).map (·.withST b) := by
  unfold memWrite
  split <;> rfl

theorem writePc_withST (a : Nat) : writePc (s.withST b) a = (writePc s a).map (·.withST b) := by
  unfold writePc
  split <;> rfl

theorem writeI_withST (a : Nat) : writeI (s.withST b) a = (writeI s a).map (·.withST b) := by
  unfold writeI
  split <;> rfl

theorem skipIf_withST (c : Bool) : skipIf (s.withST b) c = (skipIf s c).map (·.withST b) := by
  cases c with
  | true => exact writePc_withST s b (s.pc.toNat + 2)
  | false => rfl

theorem push_withST (a : Word) : push (s.withST b) a = (push s a).map (·.withST b) := by
  by_cases hsp : s.sp.val < 16
  · rw [push_of_lt s a hsp, push_of_lt (s.withST b) a hsp]
    rfl
  · have hfull : s.sp.val = 16 := by omega
    rw [push_of_full s a hfull, push_of_full (s.withST b) a hfull]
    rfl

theorem pop_withST : pop (s.withST b) = (pop s).map fun r => (r.1, r.2.withST b) := by
  by_cases hsp : 0 < s.sp.val
  · rw [pop_of_pos s hsp, pop_of_pos (s.withST b) hsp]
    rfl
  · have hempty : s.sp.val = 0 := by omega
    rw [pop_of_empty s hempty, pop_of_empty (s.withST b) hempty]
    rfl

theorem readBytes_withST (a n : Nat) : readBytes (s.withST b) a n = readBytes s a n := by
  induction n generalizing a with
  | zero => rfl
  | succ n ih =>
    simp only [readBytes, ih]
    rfl

theorem writeBytes_withST (a : Nat) (bs : List Byte) :
    writeBytes (s.withST b) a bs = (writeBytes s a bs).map (·.withST b) := by
  induction bs generalizing s a with
  | nil => rfl
  | cons v bs ih => exact bind_eq_map (memWrite_withST s b a v) fun t => ih t (a + 1)

theorem State.pickKey_withST : (s.withST b).pickKey = s.pickKey := rfl

theorem State.tickDue_withST : (s.withST b).tickDue = s.tickDue := rfl

theorem State.loadRegs_withST (k : Nat) (bs : List Byte) : (s.withST b).loadRegs k bs = (s.loadRegs k bs).withST b := by
  induction bs generalizing s k with
  | nil => rfl
  | cons v bs ih => exact ih { s with V := s.V.setIfInBounds k v } (k + 1)

theorem State.writeFlagAndResult_withST (x y : RegIdx) (f g : Byte → Byte → Byte) :
    (s.withST b).writeFlagAndResult x y f g = (s.writeFlagAndResult x y f g).withST b := by
  cases ho : s.params.aluVfOrder <;> simp only [State.writeFlagAndResult, State.withST, ho] <;> rfl

theorem State.writeCarryAndSum_withST (x y : RegIdx) :
    (s.withST b).writeCarryAndSum x y = (s.writeCarryAndSum x y).withST b := by
  cases ho : s.params.aluVfOrder <;> simp only [State.writeCarryAndSum, State.withST, ho] <;> rfl

theorem State.placeBytes_withST (a : Nat) (bs : List Byte) :
    (s.withST b).placeBytes a bs = (s.placeBytes a bs).withST b := by
  induction bs generalizing s a with
  | nil => rfl
  | cons v bs ih => exact ih (s.setByte a v) (a + 1)

theorem fetchAndAdvance_withST :
    fetchAndAdvance (s.withST b) = (fetchAndAdvance s).map fun r => (r.1, r.2.withST b) :=
  bind_eq_map_of_read rfl fun _ => bind_eq_map (writePc_withST s b _) fun _ => rfl

/-! ### Instructions -/

/-- Where the statements commute with another ST, so does the instruction, whose fault is taken from another ST
too. -/
theorem complete_withST {s t : State} {e e' : Except Raise State} (h : complete s e = .next t)
    (he : e' = e.map (·.withST b)) : complete (s.withST b) e' = .next (t.withST b) := by
  subst he
  obtain ⟨u, rfl, hu⟩ | ⟨r, rfl, hr⟩ := complete_cases s e
  · obtain rfl : u = t := Host.Outcome.next.inj (hu.symm.trans h)
    rfl
  · obtain rfl := Host.Outcome.next.inj (hr.symm.trans h)
    rfl

theorem exec_withST {i : Instr} {s t : State} (h : exec i s = .next t) :
    ∃ b', exec i (s.withST b) = .next (t.withST b') := by
  cases i with
  | ldSTV x =>
    obtain rfl := Host.Outcome.next.inj h
    exact ⟨s.getV x, rfl⟩
  | cls | sys _ | jp _ | ldVB _ _ | addVB _ _ | ldVV _ _ | orVV _ _ | andVV _ _ | xorVV _ _ | ldI _ | rnd _ _ | ldVDT _
  | ldDTV _ | ldFV _ =>
    obtain rfl := Host.Outcome.next.inj h
    exact ⟨b, rfl⟩
  | sub _ _ | shr _ _ | subn _ _ | shl _ _ =>
    obtain rfl := Host.Outcome.next.inj h
    exact ⟨b, congrArg Host.Outcome.next (s.writeFlagAndResult_withST b _ _ _ _)⟩
  | addVV x y =>
    obtain rfl := Host.Outcome.next.inj h
    exact ⟨b, congrArg Host.Outcome.next (s.writeCarryAndSum_withST b x y)⟩
  | seVB _ _ | sneVB _ _ | seVV _ _ | sneVV _ _ | skp _ | sknp _ =>
    exact ⟨b, complete_withST b h (skipIf_withST s b _)⟩
  | jpV0 _ => exact ⟨b, complete_withST b h (writePc_withST s b _)⟩
  | addIV _ => exact ⟨b, complete_withST b h (writeI_withST s b _)⟩
  | ret => exact ⟨b, complete_withST b h (bind_eq_map (pop_withST s b) fun _ => rfl)⟩
  | call _ => exact ⟨b, complete_withST b h (bind_eq_map (push_withST s b s.pc) fun _ => rfl)⟩
  | drw _ _ _ => exact ⟨b, complete_withST b h (bind_eq_map_of_read (readBytes_withST s b _ _) fun _ => rfl)⟩
  | ldVK x =>
    refine ⟨b, complete_withST b h ?_⟩
    rw [s.pickKey_withST b]
    cases s.pickKey <;> rfl
  | ldBV _ | ldMemV _ =>
    exact ⟨b, complete_withST b h (bind_eq_map_of_read rfl fun _ => writeBytes_withST s b _ _)⟩
  | ldVMem _ =>
    exact ⟨b, complete_withST b h (bind_eq_map_of_read rfl fun _ => bind_eq_map_of_read (readBytes_withST s b _ _)
      fun bytes => congrArg Except.ok (s.loadRegs_withST b 0 bytes))⟩

/-! ### Steps -/

theorem State.timerStep_withST :
    (s.withST b).timerStep = s.timerStep.withST (if s.tickDue then decrement b else b) := by
  unfold State.timerStep
  rw [s.tickDue_withST b]
  split <;> rfl

theorem State.endCycle_withST : ∃ b', (s.withST b).endCycle = s.endCycle.withST b' := by
  cases hs : s.status with
  | faulted r =>
    rw [State.endCycle_faulted hs, State.endCycle_faulted (s := s.withST b) hs]
    exact ⟨b, rfl⟩
  | unloaded | running =>
    rw [State.endCycle_of_not_faulted (by simp [hs]), State.endCycle_of_not_faulted (by simp [hs])]
    exact ⟨_, s.timerStep_withST b⟩

theorem State.performLoad_withST (image : List Byte) :
    (s.withST b).performLoad image = (s.performLoad image).withST b := by
  unfold State.performLoad
  rw [State.withST_status]
  split
  · split
    · rfl
    · rw [State.placeBytes_withST]
      rfl
  · rfl
  · rfl

theorem cycle_of_not_running {input : CycleInput} {s : State} (h : s.status ≠ .running) :
    cycle input s = .next s.noCycle := by
  cases hs : s.status with
  | running => exact absurd hs h
  | unloaded | faulted r => simp only [cycle, hs]

theorem cycle_withST {input : CycleInput} {s t : State} (h : cycle input s = .next t) :
    ∃ b', cycle input (s.withST b) = .next (t.withST b') := by
  obtain ⟨hs, rfl⟩ | ⟨hs, hnow, hcases⟩ := cycle_cases h
  · exact ⟨b, cycle_of_not_running (s := s.withST b) hs⟩
  have hfetch := fetchAndAdvance_withST (s.beginCycle input) b
  obtain ⟨r, hr, rfl⟩ | ⟨why, u, hu, rfl⟩ | ⟨i, u, v, hu, hv, rfl⟩ := hcases
  · rw [hr] at hfetch
    exact ⟨b, cycle_of_error (s := s.withST b) hs (not_lt.mp hnow) hfetch⟩
  · rw [hu] at hfetch
    obtain ⟨b', hend⟩ := u.endCycle_withST b
    exact ⟨b', (cycle_of_ok (s := s.withST b) hs (not_lt.mp hnow) hfetch).trans (congrArg Host.Outcome.next hend)⟩
  · rw [hu] at hfetch
    obtain ⟨b₁, hexec⟩ := exec_withST b hv
    obtain ⟨b₂, hend⟩ := v.endCycle_withST b₁
    refine ⟨b₂, (cycle_of_ok (s := s.withST b) hs (not_lt.mp hnow) hfetch).trans ?_⟩
    rw [← hend]
    exact execute_accept hexec

end

/-- Settles O13: every operation of the host commutes with another ST, and a cycle's instruction does. -/
theorem soundTimerIsNeverRead : Obligations.SoundTimerIsNeverRead := by
  intro s t b h
  show ∃ b', step (s.withST b) = .next (t.withST b')
  obtain ⟨hcalls, rfl⟩ | ⟨now0, rest, hcalls, rfl⟩ | ⟨image, rest, hcalls, rfl⟩ | ⟨rest, hcalls, rfl⟩ |
    ⟨input, rest, hcalls, hc⟩ := step_cases h
  · exact ⟨b, by simp only [step, show (t.withST b).calls = [] from hcalls]; rfl⟩
  · exact ⟨0, step_of_calls (s := s.withST b) hcalls⟩
  · refine ⟨b, (step_of_calls (s := s.withST b) hcalls).trans (congrArg Host.Outcome.next ?_)⟩
    exact State.performLoad_withST { s with calls := rest } b image
  · exact ⟨b, step_of_calls (s := s.withST b) hcalls⟩
  · rw [step_of_calls (s := s.withST b) hcalls]
    exact cycle_withST b hc

end Sys2Proof.Machine

/-! ## Memory (spec/20_memory.md R34 to R37, R49) -/

namespace Sys2Proof.Machine

/-! ### The canonical form -/

/-- A listed address reads as its entry says, when no other entry lists it. -/
theorem Memory.read_of_mem (font : Vector Byte 80) {m : Memory} (hm : m.Pairwise (fun c d => c.1 < d.1))
    {c : Host.Cell} (hc : c ∈ m) : Memory.read font m c.1 = c.2 := by
  induction hm with
  | nil => cases hc
  | @cons e m he _ ih =>
    rcases List.mem_cons.mp hc with rfl | hc
    · exact if_pos rfl
    · exact (if_neg (he c hc).ne').trans (ih hc)

/-- What reads otherwise than the background is listed. -/
theorem Memory.mem_of_read_ne (font : Vector Byte 80) {m : Memory} {a : Nat}
    (h : Memory.read font m a ≠ Memory.background font a) : (a, Memory.read font m a) ∈ m := by
  induction m with
  | nil => exact absurd rfl h
  | cons e m ih =>
    obtain ⟨k, u⟩ := e
    by_cases ha : a = k
    · simp [Memory.read, ha]
    · simp only [Memory.read, if_neg ha] at h ⊢
      exact List.mem_cons_of_mem _ (ih h)

/-- The entries of a memory in canonical form are determined by what it reads as. -/
theorem Memory.mem_iff_of_wf {font : Vector Byte 80} {m : Memory} (hm : Memory.wf font m) (c : Host.Cell) :
    c ∈ m ↔ Memory.read font m c.1 = c.2 ∧ c.2 ≠ Memory.background font c.1 := by
  constructor
  · exact fun hc => ⟨Memory.read_of_mem font hm.1 hc, (hm.2 c hc).2⟩
  · rintro ⟨hread, hne⟩
    have hmem := Memory.mem_of_read_ne font (hread.trans_ne hne)
    rwa [hread] at hmem

/-- Settles O16: the two memories have the same entries, each in rising order of the addresses. -/
theorem canonicalMemoriesAreEqual : Obligations.CanonicalMemoriesAreEqual := by
  intro font m₁ m₂ h₁ h₂ hread
  have : Std.Irrefl fun c d : Host.Cell => c.1 < d.1 := ⟨fun c => lt_irrefl c.1⟩
  have : Std.Antisymm fun c d : Host.Cell => c.1 < d.1 := ⟨fun c d hcd hdc => absurd hcd hdc.asymm⟩
  refine h₁.1.eq_of_mem_iff h₂.1 fun c => ?_
  rw [Memory.mem_iff_of_wf h₁, Memory.mem_iff_of_wf h₂, hread]

/-! ### Fx55 and the fetch -/

/-- Fx55 inside memory stores V0 to Vx at I to I + x, and changes nothing else (R98). -/
theorem exec_ldMemV_of_le {s : State} {x : RegIdx} (h : s.I.toNat + x.val ≤ 0xFFF) :
    ∃ t, exec (.ldMemV x) s = .next t ∧
      (∀ k : RegIdx, k ≤ x → t.byteAt (s.I.toNat + k.val) = s.getV k) ∧
      (∀ a, a < s.I.toNat ∨ s.I.toNat + x.val < a → t.byteAt a = s.byteAt a) ∧ t = { s with mem := t.mem } := by
  have hlen := s.regsUpTo_length x
  obtain ⟨t, ht, hframe, hbytes, -⟩ := writeBytes_of_le s (s.regsUpTo x) (a := s.I.toNat) (.inr (by omega))
  refine ⟨t, ?_, fun k hk => ?_, fun a ha => ?_, hframe⟩
  · simp only [exec, execLdMemV, checkLast_of_le h]
    exact congrArg (complete s) ht
  · have hkx : k.val ≤ x.val := hk
    rw [hbytes, dif_pos (by omega), State.regsUpTo_getElem]
    simp
  · rw [hbytes, dif_neg (by omega)]

/-- Settles O15: both fetched bytes are among those Fx55 stored. -/
theorem storedBytesAreFetched : Obligations.StoredBytesAreFetched := by
  intro s t x k hk hle hexec
  obtain ⟨u, hu, hstored, -, -⟩ := exec_ldMemV_of_le hle
  obtain rfl : u = t := Host.Outcome.next.inj (hu.symm.trans hexec)
  have hhi := hstored k (Nat.le_of_succ_le hk)
  have hlo := hstored ⟨k.val + 1, lt_of_le_of_lt hk x.isLt⟩ hk
  refine ⟨_, fetch16_of_lt u (by omega), ?_⟩
  rw [wordOfBytes_toNat, hhi, Nat.add_assoc, hlo]

/-- Settles O14, from what each primitive does inside memory and past it. -/
theorem memoryPrimitives : Obligations.MemoryPrimitives :=
  ⟨fun s _ => memRead_of_le s, fun s _ => memRead_of_gt s,
    fun s a v ha => ⟨s.setByte a v, memWrite_of_le s v ha, fun b => s.byteAt_setByte a b v, rfl⟩,
    fun s _ v => memWrite_of_gt s v,
    fun s _ ha => ⟨_, fetch16_of_lt s ha, wordOfBytes_toNat _ _⟩,
    fun s => fetch16_of_ge s le_rfl⟩

end Sys2Proof.Machine

/-! ## The decoder and the encoder (spec/30_encoding.md R52 to R59) -/

namespace Sys2Proof

/-! ### Words by their fields -/

section
variable {w : Word} {op : BitVec 4}

theorem formNNN_of_op (h : (opField w).toNat = op.toNat) : formNNN op (nnnField w) = w := by
  rw [← BitVec.eq_of_toNat_eq h, formNNN_fields]

theorem formXKK_of_op (h : (opField w).toNat = op.toNat) : formXKK op (xField w) (kkField w) = w := by
  rw [← BitVec.eq_of_toNat_eq h, formXKK_fields]

theorem formXYN_of_op (h : (opField w).toNat = op.toNat) : formXYN op (xField w) (yField w) (nField w) = w := by
  rw [← BitVec.eq_of_toNat_eq h, formXYN_fields]

theorem formNNN_inj {nnn nnn' : BitVec 12} : formNNN op nnn = formNNN op nnn' ↔ nnn = nnn' :=
  ⟨fun h => by simpa using congrArg nnnField h, congrArg _⟩

end

/-! ### Op 0 (R55, R57, R58) -/

/-- An op-0 word is SYS exactly where neither of the decoder's two tests before it holds. -/
theorem sysField_nnnField_iff (p : Params) {w : Word} (hop : (opField w).toNat = 0x0) :
    sysField p (nnnField w) = true ↔
      ¬ (w = 0x00E0 ∨ (kkField w = 0xE0 ∧ p.decodeOp0IgnoreX)) ∧
      ¬ (w = 0x00EE ∨ (kkField w = 0xEE ∧ p.decodeOp0IgnoreX)) := by
  cases hx : p.decodeOp0IgnoreX with
  | false =>
    have word_iff (nnn : BitVec 12) : w = formNNN 0x0 nnn ↔ nnnField w = nnn := by
      rw [← formNNN_of_op (op := 0x0) hop, formNNN_inj, nnnField_formNNN]
    have hcls : w = 0x00E0 ↔ nnnField w = 0x0E0 := word_iff 0x0E0
    have hret : w = 0x00EE ↔ nnnField w = 0x0EE := word_iff 0x0EE
    simp only [Bool.false_eq_true, and_false, or_false, hcls, hret]
    simp [sysField, hx]
  | true =>
    have hkk : (nnnField w).extractLsb' 0 8 = kkField w := by rw [← kkField_formNNN (opField w), formNNN_fields]
    have hcls : w = 0x00E0 → kkField w = 0xE0 := by rintro rfl; rfl
    have hret : w = 0x00EE → kkField w = 0xEE := by rintro rfl; rfl
    simp only [and_true, or_iff_right_of_imp hcls, or_iff_right_of_imp hret]
    simp [sysField, hx, hkk]

/-! ### Decode of encode -/

theorem decode_sys {p : Params} {nnn : BitVec 12} (h : sysField p nnn = true) :
    decode p (formNNN 0x0 nnn) = .accept (.sys nnn) := by
  have hop : (opField (formNNN 0x0 nnn)).toNat = 0x0 := by simp
  rw [decode_of_op0 p hop, decodeOp0]
  obtain ⟨hcls, hret⟩ := (sysField_nnnField_iff p hop).mp (by simpa using h)
  rw [if_neg hcls, if_neg hret, nnnField_formNNN]

theorem decode_encode {p : Params} {i : Instr} (h : WellFormed p i = true) : decode p (encode i) = .accept i := by
  cases i with
  | sys nnn => exact decode_sys h
  | cls | ret => rfl
  | jp _ | call _ | ldI _ | jpV0 _ | seVB _ _ | sneVB _ _ | ldVB _ _ | addVB _ _ | rnd _ _ | drw _ _ _ =>
    simp [encode, decode]
  | seVV _ _ => simp [encode, decode, decodeOp5]
  | sneVV _ _ => simp [encode, decode, decodeOp9]
  | ldVV _ _ | orVV _ _ | andVV _ _ | xorVV _ _ | addVV _ _ | sub _ _ | shr _ _ | subn _ _ | shl _ _ =>
    simp [encode, decode, decodeOp8]
  | skp _ | sknp _ => simp [encode, decode, decodeOpE]
  | ldVDT _ | ldVK _ | ldDTV _ | ldSTV _ | addIV _ | ldFV _ | ldBV _ | ldMemV _ | ldVMem _ =>
    simp [encode, decode, decodeOpF]

/-- Settles O17: the decoder takes each pattern apart again, and the bytes of a word make the word. -/
theorem decodeOfEncodeIsTheInstruction : Obligations.DecodeOfEncodeIsTheInstruction := by
  intro p i h
  have hdecode := decode_encode h
  exact ⟨hdecode, fun rest => (decodeBytes_bytesOfWord (encode i) p rest).trans (congrArg (·, rest) hdecode)⟩

/-! ### Encode of decode -/

/-- Every way a word can stand for the instruction `i`: it is the encoding of `i`, or it differs from it only in a field
that a parameter of R58 has the decoder ignore. -/
inductive Spells (p : Params) (w : Word) : Instr → Prop
  | encoding {i : Instr} (h : encode i = w) : Spells p w i
  | clsIgnoringX (hp : p.decodeOp0IgnoreX = true) (hop : (opField w).toNat = 0x0) (hkk : kkField w = 0xE0) :
      Spells p w .cls
  | retIgnoringX (hp : p.decodeOp0IgnoreX = true) (hop : (opField w).toNat = 0x0) (hkk : kkField w = 0xEE) :
      Spells p w .ret
  | seVVIgnoringN (hp : p.decode59IgnoreN = true) (hop : (opField w).toNat = 0x5) :
      Spells p w (.seVV (xField w) (yField w))
  | sneVVIgnoringN (hp : p.decode59IgnoreN = true) (hop : (opField w).toNat = 0x9) :
      Spells p w (.sneVV (xField w) (yField w))

section
variable {p : Params} {w : Word} {i : Instr}

theorem formXKK_of_op_kk {op : BitVec 4} {kk : Byte} (hop : (opField w).toNat = op.toNat)
    (hkk : (kkField w).toNat = kk.toNat) : formXKK op (xField w) kk = w := by
  rw [← BitVec.eq_of_toNat_eq hkk, formXKK_of_op hop]

theorem formXYN_of_op_n {op n : BitVec 4} (hop : (opField w).toNat = op.toNat)
    (hn : (nField w).toNat = n.toNat) : formXYN op (xField w) (yField w) n = w := by
  rw [← BitVec.eq_of_toNat_eq hn, formXYN_of_op hop]

/-- A decoding that depends on one test accepts where the test holds. -/
theorem accept_of_ite {c : Prop} [Decidable c] {j : Instr} {why : Reject}
    (h : (if c then Decoded.accept j else .reject why) = .accept i) : c ∧ i = j := by
  split at h
  · next hc => exact ⟨hc, (Decoded.accept.inj h).symm⟩
  · cases h

theorem decodeOp0_accept (hop : (opField w).toNat = 0x0) (h : decodeOp0 p w = .accept i) :
    WellFormed p i = true ∧ Spells p w i := by
  unfold decodeOp0 at h
  split at h
  · next hcls =>
    cases h
    obtain rfl | ⟨hkk, hp⟩ := hcls
    · exact ⟨rfl, .encoding rfl⟩
    · exact ⟨rfl, .clsIgnoringX hp hop hkk⟩
  · next hcls =>
    split at h
    · next hret =>
      cases h
      obtain rfl | ⟨hkk, hp⟩ := hret
      · exact ⟨rfl, .encoding rfl⟩
      · exact ⟨rfl, .retIgnoringX hp hop hkk⟩
    · next hret =>
      cases h
      exact ⟨(sysField_nnnField_iff p hop).mpr ⟨hcls, hret⟩, .encoding (formNNN_of_op hop)⟩

theorem decodeOp5_accept (hop : (opField w).toNat = 0x5) (h : decodeOp5 p w = .accept i) :
    WellFormed p i = true ∧ Spells p w i := by
  obtain ⟨hn | hp, rfl⟩ := accept_of_ite h
  · exact ⟨rfl, .encoding (formXYN_of_op_n hop (congrArg _ hn))⟩
  · exact ⟨rfl, .seVVIgnoringN hp hop⟩

theorem decodeOp9_accept (hop : (opField w).toNat = 0x9) (h : decodeOp9 p w = .accept i) :
    WellFormed p i = true ∧ Spells p w i := by
  obtain ⟨hn | hp, rfl⟩ := accept_of_ite h
  · exact ⟨rfl, .encoding (formXYN_of_op_n hop (congrArg _ hn))⟩
  · exact ⟨rfl, .sneVVIgnoringN hp hop⟩

theorem decodeOp8_accept (hop : (opField w).toNat = 0x8) (h : decodeOp8 w = .accept i) :
    WellFormed p i = true ∧ Spells p w i := by
  unfold decodeOp8 at h
  dsimp only at h
  split at h
  case h_10 => cases h
  all_goals
    next hn =>
      cases h
      exact ⟨rfl, .encoding (formXYN_of_op_n hop hn)⟩

theorem decodeOpE_accept (hop : (opField w).toNat = 0xE) (h : decodeOpE w = .accept i) :
    WellFormed p i = true ∧ Spells p w i := by
  unfold decodeOpE at h
  split at h
  case h_3 => cases h
  all_goals
    next hkk =>
      cases h
      exact ⟨rfl, .encoding (formXKK_of_op_kk hop hkk)⟩

theorem decodeOpF_accept (hop : (opField w).toNat = 0xF) (h : decodeOpF w = .accept i) :
    WellFormed p i = true ∧ Spells p w i := by
  unfold decodeOpF at h
  dsimp only at h
  split at h
  case h_10 => cases h
  all_goals
    next hkk =>
      cases h
      exact ⟨rfl, .encoding (formXKK_of_op_kk hop hkk)⟩

/-- What the decoder accepts is well-formed, and the word spells it. -/
theorem decode_accept (h : decode p w = .accept i) : WellFormed p i = true ∧ Spells p w i := by
  unfold decode at h
  split at h
  case h_1 hop => exact decodeOp0_accept hop h
  case h_2 hop | h_3 hop | h_11 hop | h_12 hop =>
    cases h
    exact ⟨rfl, .encoding (formNNN_of_op hop)⟩
  case h_4 hop | h_5 hop | h_7 hop | h_8 hop | h_13 hop =>
    cases h
    exact ⟨rfl, .encoding (formXKK_of_op hop)⟩
  case h_6 hop => exact decodeOp5_accept hop h
  case h_9 hop => exact decodeOp8_accept hop h
  case h_10 hop => exact decodeOp9_accept hop h
  case h_14 hop =>
    cases h
    exact ⟨rfl, .encoding (formXYN_of_op hop)⟩
  case h_15 hop => exact decodeOpE_accept hop h
  case h_16 =>
    have hop : (opField w).toNat = 0xF := by
      have := (opField w).isLt
      simp only [imp_false] at *; omega
    exact decodeOpF_accept hop h

end

/-! ### The words of R58 -/

section
variable (p : Params) (x y : RegIdx) (n : BitVec 4)

theorem ofNat_formXYN (op : BitVec 4) :
    BitVec.ofNat 16 (0x1000 * op.toNat + 0x100 * x.val + 0x10 * y.val + n.toNat) = formXYN op x y n := by
  apply BitVec.eq_of_toNat_eq
  have := op.isLt
  have := n.isLt
  rw [formXYN_toNat, BitVec.toNat_ofNat]
  omega

theorem decode_5xyN : decode p (BitVec.ofNat 16 (0x5000 + 0x100 * x.val + 0x10 * y.val + n.toNat)) =
    if n = 0 ∨ p.decode59IgnoreN then .accept (.seVV x y) else .reject .unknown5xyN := by
  rw [show BitVec.ofNat 16 (0x5000 + 0x100 * x.val + 0x10 * y.val + n.toNat) = formXYN 0x5 x y n from
    ofNat_formXYN x y n 0x5, decode_of_op5 p (by simp), decodeOp5, nField_formXYN, xField_formXYN, yField_formXYN]

theorem decode_9xyN : decode p (BitVec.ofNat 16 (0x9000 + 0x100 * x.val + 0x10 * y.val + n.toNat)) =
    if n = 0 ∨ p.decode59IgnoreN then .accept (.sneVV x y) else .reject .unknown9xyN := by
  rw [show BitVec.ofNat 16 (0x9000 + 0x100 * x.val + 0x10 * y.val + n.toNat) = formXYN 0x9 x y n from
    ofNat_formXYN x y n 0x9, decode_of_op9 p (by simp), decodeOp9, nField_formXYN, xField_formXYN, yField_formXYN]

theorem ofNat_formNNN_zero {k : Nat} (hk : k < 0x1000) : BitVec.ofNat 16 k = formNNN 0x0 (BitVec.ofNat 12 k) := by
  apply BitVec.eq_of_toNat_eq
  simp [formNNN_toNat]
  omega

theorem opField_ofNat_zero {k : Nat} (hk : k < 0x1000) : (opField (BitVec.ofNat 16 k)).toNat = 0x0 := by
  rw [ofNat_formNNN_zero hk, opField_formNNN]
  rfl

variable {p} (kk : Byte)

theorem kkField_ofNat : kkField (BitVec.ofNat 16 (0x100 * x.val + kk.toNat)) = kk := by
  apply BitVec.eq_of_toNat_eq
  have := kk.isLt
  rw [kkField_toNat, BitVec.toNat_ofNat]
  omega

theorem decode_0xE0 (hp : p.decodeOp0IgnoreX = true) :
    decode p (BitVec.ofNat 16 (0x100 * x.val + 0xE0)) = .accept .cls := by
  rw [decode_of_op0 p (opField_ofNat_zero (by omega)), decodeOp0, if_pos (.inr ⟨kkField_ofNat x 0xE0, hp⟩)]

theorem decode_0xEE (hp : p.decodeOp0IgnoreX = true) :
    decode p (BitVec.ofNat 16 (0x100 * x.val + 0xEE)) = .accept .ret := by
  have hkk : kkField (BitVec.ofNat 16 (0x100 * x.val + 0xEE)) = 0xEE := kkField_ofNat x 0xEE
  rw [decode_of_op0 p (opField_ofNat_zero (by omega)), decodeOp0, if_neg ?_, if_pos (.inr ⟨hkk, hp⟩)]
  rintro (h | ⟨h, -⟩)
  · rw [h] at hkk
    exact absurd hkk (by decide)
  · exact absurd (hkk.symm.trans h) (by decide)

/-- Where x decides too, an op-0 word with x not 0 is SYS. -/
theorem decode_0xkk_sys (hp : p.decodeOp0IgnoreX = false) {k : Nat} (hlo : 0x100 ≤ k) (hhi : k < 0x1000) :
    decode p (BitVec.ofNat 16 k) = .accept (.sys (BitVec.ofNat 12 k)) := by
  have hne {m : Nat} (hm : m < 0x100) : BitVec.ofNat 12 k ≠ BitVec.ofNat 12 m := fun h => by
    have h := congrArg BitVec.toNat h
    simp only [BitVec.toNat_ofNat] at h
    omega
  rw [ofNat_formNNN_zero hhi]
  refine decode_sys ?_
  simp [sysField, hp, hne (m := 0xE0) (by omega), hne (m := 0xEE) (by omega)]

end

/-- Settles O18: the ways a word can spell an instruction, read as numbers, and the words that each parameter of R58
adds. -/
theorem encodeOfDecodeIsTheWord : Obligations.EncodeOfDecodeIsTheWord := by
  refine ⟨fun p w i h => ?_, fun p x hp => ⟨decode_0xE0 x hp, decode_0xEE x hp⟩, fun p x y n hp => ?_⟩
  · obtain ⟨hwf, hspells⟩ := decode_accept h
    refine ⟨hwf, fun hx hn => ?_, fun hne => ?_⟩
    · cases hspells with
      | encoding he => exact he
      | clsIgnoringX hp | retIgnoringX hp => exact Bool.noConfusion (hx.symm.trans hp)
      | seVVIgnoringN hp | sneVVIgnoringN hp => exact Bool.noConfusion (hn.symm.trans hp)
    · rw [← opField_toNat, ← kkField_toNat, ← xField_val, ← yField_val]
      cases hspells with
      | encoding he => exact absurd he hne
      | clsIgnoringX hp hop hkk => exact .inl ⟨hp, hop, .inl ⟨rfl, congrArg _ hkk⟩⟩
      | retIgnoringX hp hop hkk => exact .inl ⟨hp, hop, .inr ⟨rfl, congrArg _ hkk⟩⟩
      | seVVIgnoringN hp hop => exact .inr ⟨hp, xField w, yField w, rfl, rfl, .inl ⟨rfl, hop⟩⟩
      | sneVVIgnoringN hp hop => exact .inr ⟨hp, xField w, yField w, rfl, rfl, .inr ⟨rfl, hop⟩⟩
  · rw [decode_5xyN, decode_9xyN, if_pos (.inr hp), if_pos (.inr hp)]
    exact ⟨rfl, rfl⟩

/-- Settles O19, by evaluating the decoder. -/
theorem wordsOfTheTable : Obligations.WordsOfTheTable := by
  unfold Obligations.WordsOfTheTable
  decide

/-! ### UNKNOWN words (R56, R58) -/

section
variable (p : Params) {w : Word}

theorem decodeOp0_ne_reject (why : Reject) : decodeOp0 p w ≠ .reject why := by
  unfold decodeOp0
  split
  · simp
  · split <;> simp

theorem exists_ite_eq_reject_iff {c : Prop} [Decidable c] {i : Instr} {r : Reject} :
    (∃ why, (if c then Decoded.accept i else .reject r) = .reject why) ↔ ¬ c := by
  by_cases hc : c <;> simp [hc]

/-- Where the test that op 5 and op 9 share fails (R58). -/
theorem not_skips_iff :
    ¬ (nField w = 0 ∨ p.decode59IgnoreN = true) ↔ w.toNat % 16 ≠ 0 ∧ p.decode59IgnoreN = false := by
  rw [not_or, Bool.not_eq_true, ← nField_toNat, Ne, BitVec.toNat_eq]
  rfl

theorem decodeOp5_reject_iff :
    (∃ why, decodeOp5 p w = .reject why) ↔ w.toNat % 16 ≠ 0 ∧ p.decode59IgnoreN = false :=
  exists_ite_eq_reject_iff.trans (not_skips_iff p)

theorem decodeOp9_reject_iff :
    (∃ why, decodeOp9 p w = .reject why) ↔ w.toNat % 16 ≠ 0 ∧ p.decode59IgnoreN = false :=
  exists_ite_eq_reject_iff.trans (not_skips_iff p)

theorem decodeOp8_reject_iff :
    (∃ why, decodeOp8 w = .reject why) ↔ w.toNat % 16 ∈ [0x8, 0x9, 0xA, 0xB, 0xC, 0xD, 0xF] := by
  unfold decodeOp8
  rw [nField_toNat]
  dsimp only
  split
  case h_10 =>
    simp only [imp_false] at *
    simp
    omega
  all_goals next hn => simp [hn]

theorem decodeOpE_reject_iff : (∃ why, decodeOpE w = .reject why) ↔ w.toNat % 256 ∉ [0x9E, 0xA1] := by
  unfold decodeOpE
  rw [kkField_toNat]
  split
  case h_3 h9E hA1 => simpa using ⟨h9E, hA1⟩
  all_goals next hkk => simp [hkk]

theorem decodeOpF_reject_iff : (∃ why, decodeOpF w = .reject why) ↔
    w.toNat % 256 ∉ [0x07, 0x0A, 0x15, 0x18, 0x1E, 0x29, 0x33, 0x55, 0x65] := by
  unfold decodeOpF
  rw [kkField_toNat]
  dsimp only
  split
  case h_10 =>
    simp only [imp_false] at *
    simp [*]
  all_goals next hkk => simp [hkk]

theorem decode_reject_iff : (∃ why, decode p w = .reject why) ↔
    ((w.toNat / 4096 = 0x5 ∨ w.toNat / 4096 = 0x9) ∧ w.toNat % 16 ≠ 0 ∧ p.decode59IgnoreN = false) ∨
    (w.toNat / 4096 = 0x8 ∧ w.toNat % 16 ∈ [0x8, 0x9, 0xA, 0xB, 0xC, 0xD, 0xF]) ∨
    (w.toNat / 4096 = 0xE ∧ w.toNat % 256 ∉ [0x9E, 0xA1]) ∨
    (w.toNat / 4096 = 0xF ∧ w.toNat % 256 ∉ [0x07, 0x0A, 0x15, 0x18, 0x1E, 0x29, 0x33, 0x55, 0x65]) := by
  unfold decode
  rw [opField_toNat]
  split
  case h_1 hop => simp [hop, decodeOp0_ne_reject]
  case h_6 hop => simp [hop, decodeOp5_reject_iff]
  case h_9 hop => simp [hop, decodeOp8_reject_iff]
  case h_10 hop => simp [hop, decodeOp9_reject_iff]
  case h_15 hop => simp [hop, decodeOpE_reject_iff]
  case h_16 =>
    have hop : w.toNat / 4096 = 0xF := by
      have := w.isLt
      simp only [imp_false] at *; omega
    simp [hop, decodeOpF_reject_iff]
  all_goals next hop => simp [hop]
end

end Sys2Proof

/-! ## The cycle around the decoded instruction (spec/30_encoding.md R56, R62, R63) -/

namespace Sys2Proof.Machine

/-- Settles O20: the decoder's reject arms op by op, and the cycle of a word with no instruction. -/
theorem unknownWordsAreNoOps : Obligations.UnknownWordsAreNoOps := by
  refine ⟨rfl, fun p w => decode_reject_iff p, fun s input rest why hrun hpc hreject => ?_⟩
  have hstatus : ∀ r, (s.executing input rest).status ≠ .faulted r := fun r hr => by
    obtain ⟨hrunning, -, -⟩ := hrun
    cases hrunning.symm.trans hr
  rw [step_of_runsCycle hrun hpc, hreject, ← State.endCycle_of_not_faulted hstatus]
  rfl

/-- Bytes at pc that encode a well-formed instruction decode to it. -/
theorem State.decodedAtPc_of_encodeBytes {s : State} {i : Instr} (hwf : WellFormed s.params i = true)
    (hbytes : [s.byteAt s.pc.toNat, s.byteAt (s.pc.toNat + 1)] = encodeBytes i) : s.decodedAtPc = .accept i := by
  have hdecode := decodeBytes_bytesOfWord (encode i) s.params []
  rw [List.append_nil, decode_encode hwf] at hdecode
  exact congrArg Prod.fst ((congrArg (decodeBytes s.params) hbytes).trans hdecode)

/-- Settles O21: the cycle executes what is decoded at pc, and its end is the timer step unless the instruction
faulted. -/
theorem stepRunsTheDecodedInstruction : Obligations.StepRunsTheDecodedInstruction := by
  intro s input rest i hrun hpc hwf hbytes
  obtain ⟨t, ht⟩ := exec_next i (s.executing input rest)
  have hstep : step s = .next t.endCycle := by
    rw [step_of_runsCycle hrun hpc, State.decodedAtPc_of_encodeBytes hwf hbytes, execute_accept ht]
  refine ⟨t, ht, fun ⟨r, hr⟩ => ?_, fun hfaulted => ?_⟩
  · rw [hstep, State.endCycle_faulted hr]
  · rw [hstep, State.endCycle_of_not_faulted fun r hr => hfaulted ⟨r, hr⟩]

/-- Settles O22: at 0xFFE the advance raises and at 0xFFF the fetch does, and the fault is taken at pc. -/
theorem fetchAndAdvanceFaults : Obligations.FetchAndAdvanceFaults := by
  intro s input rest hrun
  constructor <;> intro hpc
  · rw [step_of_fetch_error hrun (fetchAndAdvance_at_FFE _ (congrArg BitVec.toNat hpc))]
    simp [State.takeFault, State.beginCycle, hpc]
  · rw [step_of_fetch_error hrun (fetchAndAdvance_of_ge _ (congrArg BitVec.toNat hpc).ge)]
    simp [State.takeFault, State.beginCycle, hpc]

end Sys2Proof.Machine

/-! ## The decoder's parameters (spec/30_encoding.md R58)

Each operation commutes with other values of the two parameters, and so does a step that decodes no word of R58. -/

namespace Sys2Proof.Machine

/-! ### The decoder -/

section
variable {w : Word} (h : ¬ ReadsDecoderParams w) (p q : Params)
include h

/-- Outside R58 an op-0 word with the low byte of CLS or of RET is the word of CLS or of RET, whatever x counts for. -/
theorem decodeOp0_eq_of_not_readsDecoderParams (hop : (opField w).toNat = 0x0) : decodeOp0 p w = decodeOp0 q w := by
  have eq_of_kk {m : Nat} (hm : m = 0xE0 ∨ m = 0xEE) (hkk : (kkField w).toNat = m) : w = BitVec.ofNat 16 m := by
    have := w.isLt
    rw [opField_toNat] at hop
    rw [kkField_toNat] at hkk
    have hx : w.toNat / 256 = 0 := by
      by_contra hx
      exact h (.inl ⟨hop, hx, by omega⟩)
    apply BitVec.eq_of_toNat_eq
    rw [BitVec.toNat_ofNat]
    omega
  have hcls (b : Prop) : kkField w = 0xE0 ∧ b → w = 0x00E0 := fun hb => eq_of_kk (.inl rfl) (congrArg _ hb.1)
  have hret (b : Prop) : kkField w = 0xEE ∧ b → w = 0x00EE := fun hb => eq_of_kk (.inr rfl) (congrArg _ hb.1)
  simp only [decodeOp0, or_iff_left_of_imp (hcls _), or_iff_left_of_imp (hret _)]

/-- Outside R58 a word of op 5 or op 9 has N = 0. -/
theorem nField_eq_zero_of_not_readsDecoderParams (hop : (opField w).toNat = 0x5 ∨ (opField w).toNat = 0x9) :
    nField w = 0 := by
  rw [opField_toNat] at hop
  apply BitVec.eq_of_toNat_eq
  rw [nField_toNat]
  by_contra hn
  exact h (.inr ⟨hop, hn⟩)

theorem decode_eq_of_not_readsDecoderParams : decode p w = decode q w := by
  unfold decode
  split
  case h_1 hop => exact decodeOp0_eq_of_not_readsDecoderParams h p q hop
  case h_6 hop => simp only [decodeOp5, nField_eq_zero_of_not_readsDecoderParams h (.inl hop), true_or]
  case h_10 hop => simp only [decodeOp9, nField_eq_zero_of_not_readsDecoderParams h (.inr hop), true_or]
  all_goals rfl

end

/-! ### The shared operations -/

section
variable (s : State) (ignX ignN : Bool)

theorem memWrite_withDecoderParams (a : Nat) (v : Byte) :
    memWrite (s.withDecoderParams ignX ignN) a v = (memWrite s a v).map (·.withDecoderParams ignX ignN) := by
  unfold memWrite
  split <;> rfl

theorem writePc_withDecoderParams (a : Nat) :
    writePc (s.withDecoderParams ignX ignN) a = (writePc s a).map (·.withDecoderParams ignX ignN) := by
  unfold writePc
  split <;> rfl

theorem writeI_withDecoderParams (a : Nat) :
    writeI (s.withDecoderParams ignX ignN) a = (writeI s a).map (·.withDecoderParams ignX ignN) := by
  unfold writeI
  split <;> rfl

theorem skipIf_withDecoderParams (c : Bool) :
    skipIf (s.withDecoderParams ignX ignN) c = (skipIf s c).map (·.withDecoderParams ignX ignN) := by
  cases c with
  | true => exact writePc_withDecoderParams s ignX ignN (s.pc.toNat + 2)
  | false => rfl

theorem push_withDecoderParams (a : Word) :
    push (s.withDecoderParams ignX ignN) a = (push s a).map (·.withDecoderParams ignX ignN) := by
  unfold push
  split <;> rfl

theorem pop_withDecoderParams :
    pop (s.withDecoderParams ignX ignN) = (pop s).map fun r => (r.1, r.2.withDecoderParams ignX ignN) := by
  unfold pop
  split <;> rfl

theorem readBytes_withDecoderParams (a n : Nat) : readBytes (s.withDecoderParams ignX ignN) a n = readBytes s a n := by
  induction n generalizing a with
  | zero => rfl
  | succ n ih =>
    simp only [readBytes, ih]
    rfl

theorem writeBytes_withDecoderParams (a : Nat) (bs : List Byte) :
    writeBytes (s.withDecoderParams ignX ignN) a bs = (writeBytes s a bs).map (·.withDecoderParams ignX ignN) := by
  induction bs generalizing s a with
  | nil => rfl
  | cons v bs ih => exact bind_eq_map (memWrite_withDecoderParams s ignX ignN a v) fun t => ih t (a + 1)

theorem State.loadRegs_withDecoderParams (k : Nat) (bs : List Byte) :
    (s.withDecoderParams ignX ignN).loadRegs k bs = (s.loadRegs k bs).withDecoderParams ignX ignN := by
  induction bs generalizing s k with
  | nil => rfl
  | cons v bs ih => exact ih { s with V := s.V.setIfInBounds k v } (k + 1)

theorem State.writeFlagAndResult_withDecoderParams (x y : RegIdx) (f g : Byte → Byte → Byte) :
    (s.withDecoderParams ignX ignN).writeFlagAndResult x y f g =
      (s.writeFlagAndResult x y f g).withDecoderParams ignX ignN := by
  cases ho : s.params.aluVfOrder <;> simp only [State.writeFlagAndResult, ho] <;> rfl

theorem State.writeCarryAndSum_withDecoderParams (x y : RegIdx) :
    (s.withDecoderParams ignX ignN).writeCarryAndSum x y = (s.writeCarryAndSum x y).withDecoderParams ignX ignN := by
  cases ho : s.params.aluVfOrder <;> simp only [State.writeCarryAndSum, ho] <;> rfl

theorem State.placeBytes_withDecoderParams (a : Nat) (bs : List Byte) :
    (s.withDecoderParams ignX ignN).placeBytes a bs = (s.placeBytes a bs).withDecoderParams ignX ignN := by
  induction bs generalizing s a with
  | nil => rfl
  | cons v bs ih => exact ih (s.setByte a v) (a + 1)

/-! ### Instructions -/

theorem complete_withDecoderParams {s t : State} {e e' : Except Raise State} (h : complete s e = .next t)
    (he : e' = e.map (·.withDecoderParams ignX ignN)) :
    complete (s.withDecoderParams ignX ignN) e' = .next (t.withDecoderParams ignX ignN) := by
  subst he
  obtain ⟨u, rfl, hu⟩ | ⟨r, rfl, hr⟩ := complete_cases s e
  · obtain rfl : u = t := Host.Outcome.next.inj (hu.symm.trans h)
    rfl
  · obtain rfl := Host.Outcome.next.inj (hr.symm.trans h)
    rfl

theorem exec_withDecoderParams {i : Instr} {s t : State} (h : exec i s = .next t) :
    exec i (s.withDecoderParams ignX ignN) = .next (t.withDecoderParams ignX ignN) := by
  cases i with
  | cls | sys _ | jp _ | ldVB _ _ | addVB _ _ | ldVV _ _ | orVV _ _ | andVV _ _ | xorVV _ _ | ldI _ | rnd _ _ | ldVDT _
  | ldDTV _ | ldSTV _ | ldFV _ =>
    obtain rfl := Host.Outcome.next.inj h
    rfl
  | sub _ _ | shr _ _ | subn _ _ | shl _ _ =>
    obtain rfl := Host.Outcome.next.inj h
    exact congrArg Host.Outcome.next (s.writeFlagAndResult_withDecoderParams ignX ignN _ _ _ _)
  | addVV x y =>
    obtain rfl := Host.Outcome.next.inj h
    exact congrArg Host.Outcome.next (s.writeCarryAndSum_withDecoderParams ignX ignN x y)
  | seVB _ _ | sneVB _ _ | seVV _ _ | sneVV _ _ | skp _ | sknp _ =>
    exact complete_withDecoderParams ignX ignN h (skipIf_withDecoderParams s ignX ignN _)
  | jpV0 _ => exact complete_withDecoderParams ignX ignN h (writePc_withDecoderParams s ignX ignN _)
  | addIV _ => exact complete_withDecoderParams ignX ignN h (writeI_withDecoderParams s ignX ignN _)
  | ret => exact complete_withDecoderParams ignX ignN h (bind_eq_map (pop_withDecoderParams s ignX ignN) fun _ => rfl)
  | call _ =>
    exact complete_withDecoderParams ignX ignN h (bind_eq_map (push_withDecoderParams s ignX ignN s.pc) fun _ => rfl)
  | drw _ _ _ =>
    exact complete_withDecoderParams ignX ignN h
      (bind_eq_map_of_read (readBytes_withDecoderParams s ignX ignN _ _) fun _ => rfl)
  | ldVK x =>
    refine complete_withDecoderParams ignX ignN h ?_
    rw [show (s.withDecoderParams ignX ignN).pickKey = s.pickKey from rfl]
    cases s.pickKey <;> rfl
  | ldBV _ | ldMemV _ =>
    exact complete_withDecoderParams ignX ignN h
      (bind_eq_map_of_read rfl fun _ => writeBytes_withDecoderParams s ignX ignN _ _)
  | ldVMem _ =>
    exact complete_withDecoderParams ignX ignN h
      (bind_eq_map_of_read rfl fun _ => bind_eq_map_of_read (readBytes_withDecoderParams s ignX ignN _ _) fun bytes =>
        congrArg Except.ok (s.loadRegs_withDecoderParams ignX ignN 0 bytes))

/-! ### Steps -/

theorem State.endCycle_withDecoderParams :
    (s.withDecoderParams ignX ignN).endCycle = s.endCycle.withDecoderParams ignX ignN := by
  have htimer : (s.withDecoderParams ignX ignN).timerStep = s.timerStep.withDecoderParams ignX ignN := by
    unfold State.timerStep
    rw [show (s.withDecoderParams ignX ignN).tickDue = s.tickDue from rfl]
    split <;> rfl
  cases hs : s.status with
  | faulted r => simp only [State.endCycle, hs]
  | unloaded | running => simpa only [State.endCycle, hs] using htimer

theorem State.performLoad_withDecoderParams (image : List Byte) :
    (s.withDecoderParams ignX ignN).performLoad image = (s.performLoad image).withDecoderParams ignX ignN := by
  cases hs : s.status with
  | running | faulted r => simp only [State.performLoad, hs]
  | unloaded =>
    simp only [State.performLoad, hs]
    split
    · rfl
    · rw [State.placeBytes_withDecoderParams]

theorem fetchAndAdvance_withDecoderParams (hw : s.pc.toNat ≤ 0xFFD → ¬ ReadsDecoderParams s.bytesAtPc) :
    fetchAndAdvance (s.withDecoderParams ignX ignN) =
      (fetchAndAdvance s).map fun r => (r.1, r.2.withDecoderParams ignX ignN) := by
  by_cases hle : s.pc.toNat ≤ 0xFFD
  · rw [fetchAndAdvance_of_le s hle, fetchAndAdvance_of_le (s.withDecoderParams ignX ignN) hle]
    exact congrArg (fun d => Except.ok (d, _)) (decode_eq_of_not_readsDecoderParams (hw hle) _ _)
  · by_cases hFFE : s.pc.toNat = 0xFFE
    · rw [fetchAndAdvance_at_FFE s hFFE, fetchAndAdvance_at_FFE (s.withDecoderParams ignX ignN) hFFE]
      rfl
    · have hge : 0xFFF ≤ s.pc.toNat := by omega
      rw [fetchAndAdvance_of_ge s hge, fetchAndAdvance_of_ge (s.withDecoderParams ignX ignN) hge]
      rfl

theorem cycle_withDecoderParams {input : CycleInput} {s t : State} (h : cycle input s = .next t)
    (hw : s.status = .running → s.input.now ≤ input.now →
      s.pc.toNat ≤ 0xFFD → ¬ ReadsDecoderParams s.bytesAtPc) :
    cycle input (s.withDecoderParams ignX ignN) = .next (t.withDecoderParams ignX ignN) := by
  obtain ⟨hs, rfl⟩ | ⟨hs, hnow, hcases⟩ := cycle_cases h
  · exact cycle_of_not_running hs
  have hnow := not_lt.mp hnow
  have hfetch := fetchAndAdvance_withDecoderParams (s.beginCycle input) ignX ignN (hw hs hnow)
  obtain ⟨r, hr, rfl⟩ | ⟨why, u, hu, rfl⟩ | ⟨i, u, v, hu, hv, rfl⟩ := hcases
  · rw [hr] at hfetch
    exact cycle_of_error (s := s.withDecoderParams ignX ignN) hs hnow hfetch
  · rw [hu] at hfetch
    rw [cycle_of_ok (s := s.withDecoderParams ignX ignN) hs hnow hfetch, ← State.endCycle_withDecoderParams]
    rfl
  · rw [hu] at hfetch
    rw [cycle_of_ok (s := s.withDecoderParams ignX ignN) hs hnow hfetch, ← State.endCycle_withDecoderParams]
    exact execute_accept (exec_withDecoderParams ignX ignN hv)

theorem step_withDecoderParams {s t : State} (h : step s = .next t)
    (hw : ∀ input rest, s.runsCycle input rest → s.pc.toNat ≤ 0xFFD → ¬ ReadsDecoderParams s.bytesAtPc) :
    step (s.withDecoderParams ignX ignN) = .next (t.withDecoderParams ignX ignN) := by
  obtain ⟨hcalls, rfl⟩ | ⟨now0, rest, hcalls, rfl⟩ | ⟨image, rest, hcalls, rfl⟩ | ⟨rest, hcalls, rfl⟩ |
    ⟨input, rest, hcalls, hc⟩ := step_cases h
  · simp only [step, hcalls]
    rfl
  · exact step_of_calls (s := s.withDecoderParams ignX ignN) hcalls
  · rw [step_of_calls (s := s.withDecoderParams ignX ignN) hcalls, ← State.performLoad_withDecoderParams]
    rfl
  · exact step_of_calls (s := s.withDecoderParams ignX ignN) hcalls
  · rw [step_of_calls (s := s.withDecoderParams ignX ignN) hcalls]
    exact cycle_withDecoderParams ignX ignN hc fun hs hnow => hw input rest ⟨hs, hcalls, hnow⟩

end

/-- Settles O58: what the decoder gives for the words of R58, and that every operation commutes with other values of its
parameters. -/
theorem decoderParametersDecideTheWordsOfR58 : Obligations.DecoderParametersDecideTheWordsOfR58 := by
  refine ⟨fun p x hx => ⟨fun hp => ⟨decode_0xE0 x hp, decode_0xEE x hp⟩, fun hp => ?_⟩, fun p x y n hn => ?_,
    fun s t ignoreX ignoreN hw h => step_withDecoderParams ignoreX ignoreN h hw⟩
  · have hpos : 0 < x.val := Fin.pos_iff_ne_zero.mpr hx
    exact ⟨decode_0xkk_sys hp (by omega) (by omega), decode_0xkk_sys hp (by omega) (by omega)⟩
  · rw [decode_5xyN, decode_9xyN]
    refine ⟨fun hp => ?_, fun hp => ?_⟩
    · simp [hp]
    · simpa [hp] using hn

end Sys2Proof.Machine

/-! ## Display (spec/40_display.md R64 to R67) -/

namespace Sys2Proof.Machine

/-! ### CLS -/

/-- The words of CLS (R58, R65): its own, and with x ignored every op-0 word with its low byte. -/
theorem decode_eq_cls_iff (p : Params) (w : Word) : decode p w = .accept .cls ↔
    w = 0x00E0 ∨ (p.decodeOp0IgnoreX = true ∧ w.toNat / 4096 = 0x0 ∧ w.toNat % 256 = 0xE0) := by
  rw [← opField_toNat, ← kkField_toNat]
  constructor
  · intro h
    obtain ⟨-, hspells⟩ := decode_accept h
    cases hspells with
    | encoding he => exact .inl he.symm
    | clsIgnoringX hp hop hkk => exact .inr ⟨hp, hop, congrArg _ hkk⟩
  · rintro (rfl | ⟨hp, hop, hkk⟩)
    · exact decode_encode (i := .cls) rfl
    · rw [decode_of_op0 p hop, decodeOp0, if_pos (.inr ⟨BitVec.eq_of_toNat_eq hkk, hp⟩)]

@[simp] theorem Framebuffer.pixel_clear (r : Fin 32) (c : Fin 64) : Framebuffer.clear.pixel r c = false := by
  simp [Framebuffer.clear, Framebuffer.pixel]

/-- Settles O23: which words the decoder gives to CLS, and that its one statement clears every pixel. -/
theorem clsClearsTheScreen : Obligations.ClsClearsTheScreen := by
  refine ⟨fun p => decode_encode (i := .cls) rfl, fun w h => ?_, decode_eq_cls_iff, fun s =>
    ⟨_, rfl, Framebuffer.pixel_clear, rfl, rfl, fun a => rfl⟩⟩
  obtain hw | ⟨hp, -, -⟩ := (decode_eq_cls_iff Params.spec w).mp h
  · exact hw
  · cases hp

/-! ### The sprite as bytes and as pixels (R64) -/

/-- The `n` sprite bytes at I. -/
def State.spriteBytes (s : State) (n : Nat) : List Byte := (List.range n).map fun k => s.byteAt (s.I.toNat + k)

@[simp] theorem State.spriteBytes_length (s : State) (n : Nat) : (s.spriteBytes n).length = n := by
  simp [State.spriteBytes]

theorem State.spriteBytes_getD (s : State) (n i : Nat) :
    (s.spriteBytes n).getD i 0 = if i < n then s.byteAt (s.I.toNat + i) else 0 := by
  by_cases hi : i < n <;> simp [State.spriteBytes, hi]

/-- A byte is 0 exactly where it has no sprite pixel. -/
theorem exists_spriteBit_iff (b : Byte) : (∃ j, j < 8 ∧ spriteBit b j = true) ↔ b ≠ 0 := by
  constructor
  · rintro ⟨j, -, hj⟩ rfl
    exact absurd hj (by simp)
  · intro hb
    by_contra hnone
    refine hb (BitVec.eq_of_getLsbD_eq fun k hk => ?_)
    have hbit : spriteBit b (7 - k) = false :=
      Bool.eq_false_of_not_eq_true fun h => hnone ⟨7 - k, by omega, h⟩
    rw [spriteBit, show 7 - (7 - k) = k by omega] at hbit
    simp [hbit]

theorem spritePixel_iff {s : State} {cx cy n i j : Nat} (hi : i < n) {r : Fin 32} {c : Fin 64} :
    SpritePixel s cx cy i j r c ↔
      j < 8 ∧ spriteBit ((s.spriteBytes n).getD i 0) j = true ∧ r = rowMod (cy + i) ∧ c = colMod (cx + j) := by
  rw [Fin.ext_iff, Fin.ext_iff, State.spriteBytes_getD, if_pos hi]
  rfl

/-- Some sprite bit lands on a pixel of the set `P` exactly if some sprite bit of 1 has its place in `P`. -/
theorem exists_spriteOn_iff {s : State} {cx cy n : Nat} (P : Fin 32 → Fin 64 → Prop) :
    (∃ r c, P r c ∧ SpriteOn s cx cy n r c) ↔
      ∃ i j, i < n ∧ j < 8 ∧ spriteBit ((s.spriteBytes n).getD i 0) j = true ∧
        P (rowMod (cy + i)) (colMod (cx + j)) := by
  constructor
  · rintro ⟨r, c, hP, i, j, hi, hpix⟩
    obtain ⟨hj, hbit, rfl, rfl⟩ := (spritePixel_iff hi).mp hpix
    exact ⟨i, j, hi, hj, hbit, hP⟩
  · rintro ⟨i, j, hi, hj, hbit, hP⟩
    exact ⟨_, _, hP, i, j, hi, (spritePixel_iff hi).mpr ⟨hj, hbit, rfl, rfl⟩⟩

/-- A sprite has a pixel somewhere exactly if some byte of it is not 0. -/
theorem exists_spriteOn_iff_byte (s : State) (cx cy n : Nat) :
    (∃ r c, SpriteOn s cx cy n r c) ↔ ∃ i, i < n ∧ s.byteAt (s.I.toNat + i) ≠ 0 := by
  constructor
  · rintro ⟨r, c, i, j, hi, hj, hbit, -, -⟩
    exact ⟨i, hi, (exists_spriteBit_iff _).mp ⟨j, hj, hbit⟩⟩
  · rintro ⟨i, hi, hbyte⟩
    obtain ⟨j, hj, hbit⟩ := (exists_spriteBit_iff _).mpr hbyte
    exact ⟨rowMod (cy + i), colMod (cx + j), i, j, hi, hj, hbit, rfl, rfl⟩

/-- With at most 32 rows no two sprite rows are one row of the screen, so the bit that the drawing finds for a pixel is
the one that lands there. -/
theorem spriteAt_iff {s : State} {cx cy n : Nat} (hn : n ≤ 32) {r : Fin 32} {c : Fin 64} :
    spriteAt cx cy (s.spriteBytes n) r c = true ↔ SpriteOn s cx cy n r c := by
  have hr := r.isLt
  have hc := c.isLt
  simp only [spriteAt, State.spriteBytes_getD, Bool.and_eq_true, decide_eq_true_eq]
  constructor
  · rintro ⟨hj, hbit⟩
    split at hbit
    · next hi => exact ⟨_, _, hi, hj, hbit, by omega, by omega⟩
    · exact absurd hbit (by simp)
  · rintro ⟨i, j, hi, hj, hbit, hrow, hcol⟩
    have hrow' : (r.val + 32 - cy % 32) % 32 = i := by omega
    have hcol' : (c.val + 64 - cx % 64) % 64 = j := by omega
    rw [hrow', hcol', if_pos hi]
    exact ⟨hj, hbit⟩

/-- The drawing of `n` ≤ 32 sprite bytes, its two local bits said by the pixels that sprite bits land on (R66). -/
theorem drawSprite_spec (s : State) (cx cy : Nat) {n : Nat} (hn : n ≤ 32) :
    (∀ r c, (drawSprite s.fb cx cy (s.spriteBytes n)).fb.pixel r c =
      (s.fb.pixel r c ^^ spriteAt cx cy (s.spriteBytes n) r c)) ∧
    ((drawSprite s.fb cx cy (s.spriteBytes n)).collision = true ↔
      ∃ r c, s.fb.pixel r c = true ∧ SpriteOn s cx cy n r c) ∧
    ((drawSprite s.fb cx cy (s.spriteBytes n)).flipped = true ↔ ∃ r c, SpriteOn s cx cy n r c) := by
  obtain ⟨hpixel, hcollision, hflipped⟩ :=
    Drawing.rows_spec ⟨s.fb, false, false⟩ cx cy (s.spriteBytes n) ((s.spriteBytes_length n).trans_le hn)
  have hon := exists_spriteOn_iff (s := s) (cx := cx) (cy := cy) (n := n) fun _ _ => True
  simp only [true_and, and_true] at hon
  rw [s.spriteBytes_length, or_iff_right Bool.false_ne_true] at hcollision hflipped
  exact ⟨hpixel, hcollision.trans (exists_spriteOn_iff fun r c => s.fb.pixel r c = true).symm,
    hflipped.trans hon.symm⟩

/-! ### What DRW leaves (R66) -/

theorem flagByte_toNat_eq_one_iff (c : Bool) : (flagByte c).toNat = 1 ↔ c = true := by
  cases c <;> decide

/-- The state that DRW leaves where its sprite bytes lie in memory. -/
def State.drawn (s : State) (x y : RegIdx) (n : BitVec 4) : State :=
  let d := drawSprite s.fb (s.getV x).toNat (s.getV y).toNat (s.spriteBytes n.toNat)
  { s.setV VF (flagByte d.collision) with fb := d.fb, changed := s.changed || d.flipped }

section
variable {s : State} {x y : RegIdx} {n : BitVec 4}

theorem exec_drw_of_le (h : n.toNat = 0 ∨ s.I.toNat + n.toNat ≤ 0x1000) :
    exec (.drw x y n) s = .next (s.drawn x y n) := by
  simp only [exec, execDrw, readBytes_of_le s h]
  rfl

theorem exec_drw_of_gt (hn : n.toNat ≠ 0) (hI : s.I.toNat ≤ 0xFFF) (h : 0x1000 < s.I.toNat + n.toNat) :
    exec (.drw x y n) s = .next (s.takeFault s.instrAddr ⟨.memoryOutOfRange, 0x1000⟩) := by
  simp only [exec, execDrw, readBytes_of_gt s (Nat.pos_of_ne_zero hn) h, Nat.max_eq_right (Nat.le_succ_of_le hI)]
  rfl

/-- A drawing that did not fault is the one that `State.drawn` says. -/
theorem eq_drawn_of_exec {t : State} (hle : s.I.toNat + n.toNat ≤ 0x1000) (h : exec (.drw x y n) s = .next t) :
    t = s.drawn x y n :=
  Host.Outcome.next.inj (h.symm.trans (exec_drw_of_le (.inr hle)))

variable (s x y n)

theorem State.drawn_pixel (r : Fin 32) (c : Fin 64) :
    (s.drawn x y n).fb.pixel r c =
      (s.fb.pixel r c ^^ spriteAt (s.getV x).toNat (s.getV y).toNat (s.spriteBytes n.toNat) r c) := by
  obtain ⟨hpixel, -, -⟩ := drawSprite_spec s (s.getV x).toNat (s.getV y).toNat (n := n.toNat) (by omega)
  exact hpixel r c

/-- A pixel flips exactly where a sprite bit lands (R67). -/
theorem State.drawn_pixel_ne_iff (r : Fin 32) (c : Fin 64) :
    (s.drawn x y n).fb.pixel r c ≠ s.fb.pixel r c ↔ SpriteOn s (s.getV x).toNat (s.getV y).toNat n.toNat r c := by
  rw [← spriteAt_iff (by omega), s.drawn_pixel]
  cases s.fb.pixel r c <;> simp

theorem State.drawn_getV_VF : (s.drawn x y n).getV VF =
    flagByte (drawSprite s.fb (s.getV x).toNat (s.getV y).toNat (s.spriteBytes n.toNat)).collision :=
  (s.getV_setV VF VF _).trans (if_pos rfl)

theorem State.drawn_getV_of_ne {k : RegIdx} (hk : k ≠ VF) : (s.drawn x y n).getV k = s.getV k :=
  (s.getV_setV VF k _).trans (if_neg hk)

/-- VF is 1 exactly if a sprite bit met a pixel that was on (R66). -/
theorem State.drawn_VF_eq_one_iff : ((s.drawn x y n).getV VF).toNat = 1 ↔
    ∃ r c, s.fb.pixel r c = true ∧ SpriteOn s (s.getV x).toNat (s.getV y).toNat n.toNat r c := by
  obtain ⟨-, hcollision, -⟩ := drawSprite_spec s (s.getV x).toNat (s.getV y).toNat (n := n.toNat) (by omega)
  rw [s.drawn_getV_VF, flagByte_toNat_eq_one_iff, hcollision]

theorem State.drawn_VF_cases : ((s.drawn x y n).getV VF).toNat = 1 ∨ ((s.drawn x y n).getV VF).toNat = 0 := by
  rw [s.drawn_getV_VF, flagByte_toNat]
  split
  · exact .inl rfl
  · exact .inr rfl

/-- DRW sets `changed` exactly if a sprite byte is not 0 (R66, R67). -/
theorem State.drawn_changed_iff : (s.drawn x y n).changed = true ↔
    s.changed = true ∨ ∃ i, i < n.toNat ∧ s.byteAt (s.I.toNat + i) ≠ 0 := by
  obtain ⟨-, -, hflipped⟩ := drawSprite_spec s (s.getV x).toNat (s.getV y).toNat (n := n.toNat) (by omega)
  rw [← exists_spriteOn_iff_byte s (s.getV x).toNat (s.getV y).toNat, ← hflipped]
  exact Bool.or_eq_true_iff

end

/-- Settles O24: the word of DRW, the pixels and the two bits that the loop leaves, and the fault of the reads before
it. -/
theorem drwDrawsByExclusiveOr : Obligations.DrwDrawsByExclusiveOr := by
  refine ⟨fun x y n p => ?_, fun x y n s => ⟨fun hin => ?_, fun hn hI hout =>
    ⟨_, exec_drw_of_gt hn hI hout, rfl, fun a => rfl⟩⟩⟩
  · rw [show BitVec.ofNat 16 (0xD000 + 0x100 * x.val + 0x10 * y.val + n.toNat) = formXYN 0xD x y n from
      ofNat_formXYN x y n 0xD]
    exact decode_encode (i := .drw x y n) rfl
  · refine ⟨_, exec_drw_of_le hin, fun r c => ?_, s.drawn_VF_cases x y n, s.drawn_VF_eq_one_iff x y n,
      s.drawn_changed_iff x y n, fun k hk => s.drawn_getV_of_ne x y n hk, rfl, fun a => rfl⟩
    rw [← spriteAt_iff (by omega), s.drawn_pixel]
    exact Bool.coe_xor_iff _ _

/-! ### Drawing the same sprite twice (R67) -/

theorem Framebuffer.ext_pixel {fb fb' : Framebuffer} (h : ∀ r c, fb.pixel r c = fb'.pixel r c) : fb = fb' :=
  Vector.ext fun r hr => Vector.ext fun c hc => h ⟨r, hr⟩ ⟨c, hc⟩

section
variable (s : State) {x y : RegIdx} (n : BitVec 4) (hx : x ≠ VF) (hy : y ≠ VF)
include hx hy

/-- The second drawing adds each sprite bit where the first did, as VF alone of the registers has changed. -/
theorem State.drawn_drawn_fb : ((s.drawn x y n).drawn x y n).fb = s.fb := by
  have hbytes : (s.drawn x y n).spriteBytes n.toNat = s.spriteBytes n.toNat := rfl
  refine Framebuffer.ext_pixel fun r c => ?_
  rw [State.drawn_pixel, s.drawn_getV_of_ne x y n hx, s.drawn_getV_of_ne x y n hy, hbytes, State.drawn_pixel,
    Bool.xor_assoc, Bool.xor_self, Bool.xor_false]

/-- The second drawing meets the pixels that the first turned on. -/
theorem State.drawn_drawn_VF_eq_one_iff : (((s.drawn x y n).drawn x y n).getV VF).toNat = 1 ↔
    ∃ r c, s.fb.pixel r c = false ∧ (s.drawn x y n).fb.pixel r c = true := by
  have hsprite (r : Fin 32) (c : Fin 64) :
      SpriteOn (s.drawn x y n) (s.getV x).toNat (s.getV y).toNat n.toNat r c ↔
        (s.drawn x y n).fb.pixel r c ≠ s.fb.pixel r c := (s.drawn_pixel_ne_iff x y n r c).symm
  rw [State.drawn_VF_eq_one_iff, s.drawn_getV_of_ne x y n hx, s.drawn_getV_of_ne x y n hy]
  refine exists_congr fun r => exists_congr fun c => ?_
  rw [hsprite, and_comm]
  refine and_congr_left fun hon => ?_
  rw [hon]
  exact ⟨fun h => Bool.eq_false_of_not_eq_true (Ne.symm h), fun h => by simp [h]⟩

/-- On a clear screen the first drawing turns a pixel on wherever a sprite bit lands. -/
theorem State.drawn_drawn_VF_eq_one_iff_of_clear (hclear : ∀ r c, s.fb.pixel r c = false) :
    (((s.drawn x y n).drawn x y n).getV VF).toNat = 1 ↔
      ∃ i, i < n.toNat ∧ s.byteAt (s.I.toNat + i) ≠ 0 := by
  rw [s.drawn_drawn_VF_eq_one_iff n hx hy, ← exists_spriteOn_iff_byte s (s.getV x).toNat (s.getV y).toNat]
  refine exists_congr fun r => exists_congr fun c => ?_
  rw [← s.drawn_pixel_ne_iff x y n, hclear]
  simp

end

/-- With V[x] = 63 the sprite's column 1 is the screen's column 0 (R67). -/
theorem State.drawn_pixel_wraps {s : State} {x y : RegIdx} (hx : (s.getV x).toNat = 63) {r : Fin 32}
    (hr : r.val = (s.getV y).toNat % 32) (hbit : (s.byteAt s.I.toNat).getLsbD 6 = true) :
    (s.drawn x y 1).fb.pixel r 0 = !s.fb.pixel r 0 := by
  have hon : SpriteOn s (s.getV x).toNat (s.getV y).toNat 1 r 0 :=
    ⟨0, 1, by decide, by decide, hbit, hr, by rw [hx]; rfl⟩
  exact Bool.eq_not_of_ne ((s.drawn_pixel_ne_iff x y 1 r 0).mpr hon)

/-- Settles O25: the positions are distinct on the torus, and the drawings are those that `State.drawn` says. -/
theorem drawingTwiceRestoresTheScreen : Obligations.DrawingTwiceRestoresTheScreen := by
  refine ⟨fun cx cy i j i' j' hi hi' hj hj' hrow hcol => ?distinct, fun x y n s t hle ht => ?flips,
    fun x y n s t u hx hy hle ht hu => ?twice, fun x y s t hx hI ht r hr hbit => ?wraps⟩
  case distinct =>
    have hrow := congrArg Fin.val hrow
    have hcol := congrArg Fin.val hcol
    rw [rowMod_val, rowMod_val] at hrow
    rw [colMod_val, colMod_val] at hcol
    omega
  case flips =>
    obtain rfl := eq_drawn_of_exec hle ht
    refine ⟨s.drawn_pixel_ne_iff x y n, fun hchanged => ?_⟩
    rw [s.drawn_changed_iff, hchanged]
    simp
  case twice =>
    obtain rfl := eq_drawn_of_exec hle ht
    obtain rfl := eq_drawn_of_exec (s := s.drawn x y n) hle hu
    exact ⟨s.drawn_drawn_fb n hx hy, s.drawn_drawn_VF_eq_one_iff n hx hy,
      s.drawn_drawn_VF_eq_one_iff_of_clear n hx hy⟩
  case wraps =>
    obtain rfl := eq_drawn_of_exec (n := 1) (Nat.succ_le_succ hI) ht
    exact State.drawn_pixel_wraps hx hr hbit

end Sys2Proof.Machine

/-! ## Control flow (spec/41_control_flow.md R68 to R78) -/

namespace Sys2Proof.Machine

/-! ### Words -/

section
variable {w : Word} {i : Instr} {op : BitVec 4}

theorem decodesTo_encode (hwf : ∀ p, WellFormed p i = true) : DecodesTo (encode i).toNat i := fun p => by
  rw [BitVec.ofNat_toNat, BitVec.setWidth_eq]
  exact decode_encode (hwf p)

theorem decodesTo_of_formNNN {nnn : BitVec 12} (hi : encode i = formNNN op nnn) (hwf : ∀ p, WellFormed p i = true) :
    DecodesTo (0x1000 * op.toNat + nnn.toNat) i := by
  rw [Nat.mul_comm 0x1000, ← formNNN_toNat, ← hi]
  exact decodesTo_encode hwf

theorem decodesTo_of_formXKK {x : RegIdx} {kk : Byte} (hi : encode i = formXKK op x kk)
    (hwf : ∀ p, WellFormed p i = true) : DecodesTo (0x1000 * op.toNat + 0x100 * x.val + kk.toNat) i := by
  rw [Nat.mul_comm 0x1000, Nat.mul_comm 0x100, ← formXKK_toNat, ← hi]
  exact decodesTo_encode hwf

theorem toNat_eq_formXYN_iff {x y : RegIdx} {n : BitVec 4} :
    w.toNat = 0x1000 * op.toNat + 0x100 * x.val + 0x10 * y.val + n.toNat ↔ w = formXYN op x y n := by
  rw [Nat.mul_comm 0x1000, Nat.mul_comm 0x100, Nat.mul_comm 0x10, ← formXYN_toNat, BitVec.toNat_inj]

end

section
variable (p : Params) (w : Word)

theorem sysField_iff (nnn : BitVec 12) : sysField p nnn = true ↔ nnn ≠ 0x0E0 ∧ nnn ≠ 0x0EE ∧
    (p.decodeOp0IgnoreX = true → nnn.toNat % 256 ≠ 0xE0 ∧ nnn.toNat % 256 ≠ 0xEE) := by
  have low_eq_iff (b : Byte) : nnn.extractLsb' 0 8 = b ↔ nnn.toNat % 256 = b.toNat := by
    rw [← BitVec.toNat_inj]
    simp [BitVec.extractLsb'_toNat]
  have hcls : nnn.toNat % 256 ≠ 0xE0 → nnn ≠ 0x0E0 := by rintro h rfl; exact h rfl
  have hret : nnn.toNat % 256 ≠ 0xEE → nnn ≠ 0x0EE := by rintro h rfl; exact h rfl
  cases hx : p.decodeOp0IgnoreX with
  | false => simp [sysField, hx]
  | true =>
    simp only [sysField, hx, if_true, Bool.and_eq_true, bne_iff_ne, ne_eq, low_eq_iff, forall_const]
    exact ⟨fun h => ⟨hcls h.1, hret h.2, h⟩, fun ⟨_, _, h⟩ => h⟩

/-- The words of SYS (R69): those of op 0 that the decoder gives to neither CLS nor RET. -/
theorem decode_eq_sys_iff (nnn : BitVec 12) : decode p w = .accept (.sys nnn) ↔
    w.toNat = nnn.toNat ∧ sysField p nnn = true := by
  have hform : (formNNN 0x0 nnn).toNat = nnn.toNat := by simp [formNNN_toNat]
  rw [← hform, BitVec.toNat_inj]
  constructor
  · intro h
    obtain ⟨hwf, hspells⟩ := decode_accept h
    cases hspells with
    | encoding he => exact ⟨he.symm, hwf⟩
  · rintro ⟨rfl, hsys⟩
    exact decode_sys hsys

/-- The words of RET (R58, R70): its own, and with x ignored every op-0 word with its low byte. -/
theorem decode_eq_ret_iff : decode p w = .accept .ret ↔
    w = 0x00EE ∨ (p.decodeOp0IgnoreX = true ∧ w.toNat / 4096 = 0x0 ∧ w.toNat % 256 = 0xEE) := by
  constructor
  · intro h
    obtain ⟨-, hspells⟩ := decode_accept h
    rw [← opField_toNat, ← kkField_toNat]
    cases hspells with
    | encoding he => exact .inl he.symm
    | retIgnoringX hp hop hkk => exact .inr ⟨hp, hop, congrArg _ hkk⟩
  · rintro (rfl | ⟨hp, hop, hkk⟩)
    · exact decode_encode (i := .ret) rfl
    · have hw : w = BitVec.ofNat 16 (0x100 * (xField w).val + 0xEE) := by
        apply BitVec.eq_of_toNat_eq
        rw [BitVec.toNat_ofNat, xField_val]
        omega
      rw [hw]
      exact decode_0xEE (xField w) hp

variable (x y : RegIdx)

/-- The words of SE_VV (R58, R75): 5xy0, and with N ignored every 5xyN. -/
theorem decode_eq_seVV_iff : decode p w = .accept (.seVV x y) ↔ ∃ n : BitVec 4,
    (n = 0 ∨ p.decode59IgnoreN = true) ∧ w.toNat = 0x5000 + 0x100 * x.val + 0x10 * y.val + n.toNat := by
  constructor
  · intro h
    obtain ⟨-, hspells⟩ := decode_accept h
    cases hspells with
    | encoding he => exact ⟨0, .inl rfl, toNat_eq_formXYN_iff.mpr he.symm⟩
    | seVVIgnoringN hp hop => exact ⟨nField w, .inr hp, toNat_eq_formXYN_iff.mpr (formXYN_of_op (op := 0x5) hop).symm⟩
  · rintro ⟨n, hn, hw⟩
    rw [← BitVec.setWidth_eq w, ← BitVec.ofNat_toNat, hw, decode_5xyN, if_pos hn]

/-- The words of SNE_VV (R58, R76): 9xy0, and with N ignored every 9xyN. -/
theorem decode_eq_sneVV_iff : decode p w = .accept (.sneVV x y) ↔ ∃ n : BitVec 4,
    (n = 0 ∨ p.decode59IgnoreN = true) ∧ w.toNat = 0x9000 + 0x100 * x.val + 0x10 * y.val + n.toNat := by
  constructor
  · intro h
    obtain ⟨-, hspells⟩ := decode_accept h
    cases hspells with
    | encoding he => exact ⟨0, .inl rfl, toNat_eq_formXYN_iff.mpr he.symm⟩
    | sneVVIgnoringN hp hop => exact ⟨nField w, .inr hp, toNat_eq_formXYN_iff.mpr (formXYN_of_op (op := 0x9) hop).symm⟩
  · rintro ⟨n, hn, hw⟩
    rw [← BitVec.setWidth_eq w, ← BitVec.ofNat_toNat, hw, decode_9xyN, if_pos hn]

end

/-! ### Skips and jumps -/

theorem State.takeFault_faultTaken (s : State) (r : Raise) :
    FaultTaken s (s.takeFault s.instrAddr r) r.kind r.value := ⟨rfl, fun _ => rfl⟩

/-- A bounds-checked write of pc inside memory (R20). -/
theorem writePc_onlyPc (s : State) {a : Nat} (ha : a ≤ 0xFFF) :
    ∃ t, writePc s a = .ok t ∧ t.pc.toNat = a ∧ OnlyPc s t :=
  ⟨_, writePc_of_le s ha, Nat.mod_eq_of_lt (by omega), rfl, fun _ => rfl⟩

theorem complete_writePc_of_le (s : State) {a : Nat} (ha : a ≤ 0xFFF) :
    ∃ t, complete s (writePc s a) = .next t ∧ t.pc.toNat = a ∧ OnlyPc s t := by
  obtain ⟨t, ht, hpc, hframe⟩ := writePc_onlyPc s ha
  exact ⟨t, congrArg (complete s) ht, hpc, hframe⟩

/-- A bounds-checked write of pc past memory (R20). -/
theorem complete_writePc_of_gt (s : State) {a : Nat} (ha : 0xFFF < a) :
    ∃ t, complete s (writePc s a) = .next t ∧ FaultTaken s t .pcOutOfRange a := by
  rw [writePc_of_gt s ha]
  exact ⟨_, rfl, s.takeFault_faultTaken _⟩

/-- A conditional skip as an instruction (R68). -/
theorem complete_skipIf (s : State) {c : Bool} {P : Prop} (h : c = true ↔ P) :
    ∃ t, complete s (skipIf s c) = .next t ∧ SkipsWhen P s t := by
  cases c with
  | false =>
    have hP : ¬ P := fun hP => Bool.false_ne_true (h.mpr hP)
    exact ⟨s, rfl, fun _ => rfl, fun hp => absurd hp hP, fun hp => absurd hp hP⟩
  | true =>
    have hP : P := h.mp rfl
    by_cases hle : s.pc.toNat + 2 ≤ 0xFFF
    · obtain ⟨t, ht, hpc, hframe⟩ := complete_writePc_of_le s hle
      exact ⟨t, ht, fun hn => absurd hP hn, fun _ _ => ⟨hpc, hframe⟩, fun _ hgt => absurd hle (Nat.not_le.mpr hgt)⟩
    · obtain ⟨t, ht, hfault⟩ := complete_writePc_of_gt s (Nat.lt_of_not_le hle)
      exact ⟨t, ht, fun hn => absurd hP hn, fun _ hle' => absurd hle' hle, fun _ _ => hfault⟩

/-! ### The call stack -/

section
variable {s : State}

theorem pop_of_succ {k : Fin 16} (hk : s.sp.val = k.val + 1) :
    pop s = .ok (s.stack[k], { s with sp := k.castSucc }) := by
  simp only [pop_of_pos s (by omega), hk]
  rfl

/-- RET at depth k + 1 (R70). -/
theorem exec_ret_of_succ {k : Fin 16} (hk : s.sp.val = k.val + 1) :
    exec .ret s = .next { s with sp := k.castSucc, pc := s.stack[k] } := by
  simp only [exec, execRet, pop_of_succ hk]
  rfl

theorem exec_ret_of_empty (h : s.sp.val = 0) :
    exec .ret s = .next (s.takeFault s.instrAddr ⟨.stackUnderflow, 0⟩) := by
  simp only [exec, execRet, pop_of_empty s h]
  rfl

variable (nnn : BitVec 12)

/-- CALL at depth k (R72). -/
theorem exec_call_of_lt {k : Fin 16} (hk : s.sp.val = k.val) :
    exec (.call nnn) s = .next { s with stack := s.stack.set k s.pc, sp := k.succ, pc := zext16 nnn } := by
  simp only [exec, execCall, push_of_lt s s.pc (hk ▸ k.isLt), hk]
  rfl

theorem exec_call_of_full (h : s.sp.val = 16) :
    exec (.call nnn) s = .next (s.takeFault s.instrAddr ⟨.stackOverflow, 16⟩) := by
  simp only [exec, execCall, push_of_full s s.pc h]
  rfl

end

/-! ### Runs that keep the stack below a depth (R78) -/

@[simp] theorem State.endCycle_stack (s : State) : s.endCycle.stack = s.stack := by
  rcases s.endCycle_cases with h | h <;> rw [h]
  exact s.timerStep_stack

@[simp] theorem State.performLoad_stack (s : State) (image : List Byte) : (s.performLoad image).stack = s.stack := by
  unfold State.performLoad
  split
  · split
    · rfl
    · show (s.placeBytes _ image).stack = s.stack
      rw [(s.placeBytes_spec _ image).1]
  · rfl
  · rfl

section
variable {s t : State} {k : Fin 16} (hk : k.val < s.sp.val)
include hk

/-- An instruction writes no entry below the depth: CALL writes the one at it. -/
theorem exec_stack_below {i : Instr} (h : exec i s = .next t) : t.stack[k] = s.stack[k] := by
  by_contra hne
  obtain ⟨-, hsp⟩ := (exec_effect h).stack_ne hne
  omega

theorem cycle_stack_below {input : CycleInput} (h : cycle input s = .next t) : t.stack[k] = s.stack[k] := by
  obtain ⟨-, rfl⟩ | ⟨-, -, ⟨r, -, rfl⟩ | ⟨why, u, hu, rfl⟩ | ⟨i, u, v, hu, hv, rfl⟩⟩ := cycle_cases h
  · rfl
  · rfl
  · obtain ⟨-, rfl, -⟩ := fetchAndAdvance_ok hu
    rw [State.endCycle_stack]
    rfl
  · obtain ⟨-, rfl, -⟩ := fetchAndAdvance_ok hu
    rw [State.endCycle_stack]
    exact exec_stack_below (s := { s.beginCycle input with pc := s.pc + 2 }) hk hv

theorem step_stack_below (hreset : ∀ now0 rest, s.calls ≠ .reset now0 :: rest) (h : step s = .next t) :
    t.stack[k] = s.stack[k] := by
  obtain ⟨-, rfl⟩ | ⟨now0, rest, hc, -⟩ | ⟨image, rest, -, rfl⟩ | ⟨rest, -, rfl⟩ | ⟨input, rest, -, hc⟩ := step_cases h
  · rfl
  · exact absurd hc (hreset now0 rest)
  · rw [State.performLoad_stack]
  · rfl
  · exact cycle_stack_below (s := { s with calls := rest }) hk hc

end

/-- The step lemma along a run: the depth `d` stays fixed while the run's first state moves. -/
theorem core_run_stack_below {d n : Nat} {k : Fin 16} (hk : k.val < d) {t u : State}
    (hrun : Sys2Proof.core.run n t = .next u)
    (h : ∀ (m : Nat) (v : State), m < n → Sys2Proof.core.run m t = .next v →
      d ≤ v.sp.val ∧ ∀ now0 rest, v.calls ≠ .reset now0 :: rest) : u.stack[k] = t.stack[k] := by
  induction n generalizing t with
  | zero =>
    obtain rfl := Host.Outcome.next.inj hrun
    rfl
  | succ n ih =>
    obtain ⟨v, hv, hrun⟩ := core_run_succ_cases hrun
    obtain ⟨hd, hreset⟩ := h 0 t n.succ_pos rfl
    calc u.stack[k]
      _ = v.stack[k] := ih hrun fun m w hm hw => h (m + 1) w (Nat.succ_lt_succ hm) ((core_run_succ m hv).trans hw)
      _ = t.stack[k] := step_stack_below (hk.trans_le hd) hreset hv

/-! ### The statements -/

/-- Settles O30: CALL and RET at one depth meet in the entry there, and along a run no step writes below the depth. -/
theorem callThenRetComesBack : Obligations.CallThenRetComesBack := by
  refine ⟨fun nnn s t u k hk hcall hsp hentry => ?_, fun n t u hrun h k hk => core_run_stack_below hk hrun h⟩
  obtain rfl := Host.Outcome.next.inj ((exec_call_of_lt nnn hk.symm).symm.trans hcall)
  refine ⟨_, exec_ret_of_succ (k := k) (congrArg Fin.val hsp), ?_, Fin.ext hk⟩
  exact hentry.trans (by simp)

/-- Settles O32: the patterns of the two words, and the conditional skip on equal and on unequal bytes. -/
theorem skipsOnAByte : Obligations.SkipsOnAByte := by
  refine ⟨fun x kk => ⟨decodesTo_of_formXKK (op := 0x3) rfl fun _ => rfl,
    decodesTo_of_formXKK (op := 0x4) rfl fun _ => rfl⟩, fun x kk s => ⟨complete_skipIf s ?_, complete_skipIf s ?_⟩⟩
  · rw [beq_iff_eq, BitVec.toNat_inj]
  · rw [bne_iff_ne, Ne, Ne, BitVec.toNat_inj]

/-- Settles O33: which words the decoder gives to the two skips, and the conditional skip on equal and on unequal
registers. -/
theorem skipsOnARegister : Obligations.SkipsOnARegister := by
  refine ⟨fun x y => ⟨fun p => (decode_5xyN p x y 0).trans (if_pos (.inl rfl)),
      fun p => (decode_9xyN p x y 0).trans (if_pos (.inl rfl))⟩,
    fun p w x y => ⟨decode_eq_seVV_iff p w x y, decode_eq_sneVV_iff p w x y⟩,
    fun x y s => ⟨complete_skipIf s ?_, complete_skipIf s ?_⟩⟩
  · rw [beq_iff_eq, BitVec.toNat_inj]
  · rw [bne_iff_ne, Ne, Ne, BitVec.toNat_inj]

/-- Settles O26: which words the decoder gives to SYS; its execution is the state itself. -/
theorem sysIsANoOp : Obligations.SysIsANoOp := by
  refine ⟨fun nnn hcls hret => ?_, fun p w nnn => ?_, fun nnn s => rfl⟩
  · have hsys : sysField Params.spec nnn = true :=
      (sysField_iff Params.spec nnn).mpr ⟨hcls, hret, fun hp => by cases hp⟩
    exact (decode_eq_sys_iff Params.spec _ nnn).mpr ⟨Nat.mod_eq_of_lt (by omega), hsys⟩
  · rw [decode_eq_sys_iff, sysField_iff]

/-- Settles O27: which words the decoder gives to RET, and RET at each depth. -/
theorem retPopsIntoPc : Obligations.RetPopsIntoPc := by
  refine ⟨fun p => decode_encode (i := .ret) rfl, fun w h => ?_, decode_eq_ret_iff, fun s k hk =>
    ⟨_, exec_ret_of_succ hk, rfl, rfl, rfl, fun _ => rfl⟩,
    fun s h => ⟨_, exec_ret_of_empty h, s.takeFault_faultTaken _⟩⟩
  obtain hw | ⟨hp, -, -⟩ := (decode_eq_ret_iff Params.spec w).mp h
  · exact hw
  · cases hp

/-- Settles O28: the jump writes the address field, which is in memory, into pc. -/
theorem jpSetsPc : Obligations.JpSetsPc :=
  ⟨fun _ => decodesTo_of_formNNN (op := 0x1) rfl fun _ => rfl,
    fun nnn _ => ⟨_, rfl, zext16_toNat nnn, rfl, fun _ => rfl⟩⟩

/-- Settles O29: the word of CALL, and CALL at each depth. -/
theorem callPushesPcAndJumps : Obligations.CallPushesPcAndJumps := by
  refine ⟨fun nnn => decodesTo_of_formNNN (op := 0x2) rfl fun _ => rfl, fun nnn s k hk =>
    ⟨_, exec_call_of_lt nnn hk, zext16_toNat nnn, rfl, by simp, fun j hj => ?_, rfl, fun _ => rfl⟩,
    fun nnn s h => ⟨_, exec_call_of_full nnn h, s.takeFault_faultTaken _⟩⟩
  exact Vector.getElem_set_ne k.isLt j.isLt fun h => hj (Fin.ext h.symm)

/-- Settles O31: a skip is a bounds-checked write of pc + 2. -/
theorem skipAddsTwo : Obligations.SkipAddsTwo := fun s => ⟨writePc_onlyPc s, skip_of_gt s⟩

/-- Settles O34: the jump is a bounds-checked write of the unreduced sum into pc. -/
theorem jpV0AddsV0 : Obligations.JpV0AddsV0 :=
  ⟨fun _ => decodesTo_of_formNNN (op := 0xB) rfl fun _ => rfl, fun _ s h => complete_writePc_of_le s h,
    fun _ s h => complete_writePc_of_gt s h⟩

end Sys2Proof.Machine

/-! ## Arithmetic and logic (spec/42_arithmetic_logic.md R79 to R91) -/

namespace Sys2Proof.Machine

/-! ### Words -/

theorem decodesTo_of_formXYN {i : Instr} {op n : BitVec 4} {x y : RegIdx} (hi : encode i = formXYN op x y n)
    (hwf : ∀ p, WellFormed p i = true) :
    DecodesTo (0x1000 * op.toNat + n.toNat + 0x100 * x.val + 0x10 * y.val) i := by
  have hw : (encode i).toNat = 0x1000 * op.toNat + n.toNat + 0x100 * x.val + 0x10 * y.val := by
    rw [hi, formXYN_toNat]
    ring
  exact hw ▸ decodesTo_encode hwf

/-! ### One register written -/

/-- An instruction whose one statement writes a byte with the number `b` to `x` (R80 to R85, R91). -/
theorem complete_setV (s : State) (x : RegIdx) {v : Byte} {b : Nat} (hv : v.toNat = b) :
    ∃ t, complete s (.ok (s.setV x v)) = .next t ∧ WritesV s t x b := by
  refine ⟨s.setV x v, rfl, ?_, fun k hk => ?_, rfl, s.byteAt_setV x v⟩
  · rw [State.getV_setV, if_pos rfl, hv]
  · rw [State.getV_setV, if_neg hk]

/-! ### Flag and result (R79) -/

theorem greaterFlag_toNat (a b : Byte) : (greaterFlag a b).toNat = if b.toNat < a.toNat then 1 else 0 := by
  simp only [greaterFlag, flagByte_toNat, decide_eq_true_eq]

theorem carryFlag_toNat (a b : Byte) : (carryFlag a b).toNat = if 255 < a.toNat + b.toNat then 1 else 0 := by
  simp only [carryFlag, flagByte_toNat, decide_eq_true_eq]

/-- The difference modulo 256 in the form of R87 and R89. -/
theorem byte_sub_toNat (a b : Byte) : (a - b).toNat = (a.toNat + 256 - b.toNat) % 256 := by
  rw [BitVec.toNat_sub]
  omega

theorem onlyV_of_frame {s t : State} (h : t = { s with V := t.V }) : OnlyV s t :=
  ⟨h, fun a => congrArg (·.byteAt a) h⟩

section
variable (s : State) {x : RegIdx} (y : RegIdx)

/-- 8xy4 leaves the sum in `x` where no flag written later overwrites it. -/
theorem State.writeCarryAndSum_getV_result (h : x ≠ VF ∨ s.params.aluVfOrder = .sequential) :
    (s.writeCarryAndSum x y).getV x = s.getV x + s.getV y := by
  rw [State.writeCarryAndSum_getV]
  cases ho : s.params.aluVfOrder with
  | sequential => exact if_pos rfl
  | resultThenFlag =>
    have hx : x ≠ VF := h.resolve_right fun hseq => by cases ho.symm.trans hseq
    exact (if_neg hx).trans (if_pos rfl)

/-- 8xy4 leaves the carry in VF where no sum written later overwrites it. -/
theorem State.writeCarryAndSum_getV_flag (h : x ≠ VF ∨ s.params.aluVfOrder = .resultThenFlag) :
    (s.writeCarryAndSum x y).getV VF = carryFlag (s.getV x) (s.getV y) := by
  rw [State.writeCarryAndSum_getV]
  cases ho : s.params.aluVfOrder with
  | sequential =>
    have hx : x ≠ VF := h.resolve_right fun hrtf => by cases ho.symm.trans hrtf
    exact (if_neg hx.symm).trans (if_pos rfl)
  | resultThenFlag => exact if_pos rfl

/-- Result and flag as numbers under both orders: `r` is the result as a function of the operands' numbers, `c` the number
of the flag. -/
theorem State.writeFlagAndResult_toNat {f g : Byte → Byte → Byte} {r : Nat → Nat → Nat} {c : Nat}
    (hg : ∀ a b, (g a b).toNat = r a.toNat b.toNat) (hf : (f (s.getV x) (s.getV y)).toNat = c) :
    (s.params.aluVfOrder = .sequential →
      ((s.writeFlagAndResult x y f g).getV x).toNat =
        r (if x = VF then c else (s.getV x).toNat) (if y = VF then c else (s.getV y).toNat) ∧
      (x ≠ VF → ((s.writeFlagAndResult x y f g).getV VF).toNat = c)) ∧
    (s.params.aluVfOrder = .resultThenFlag →
      ((s.writeFlagAndResult x y f g).getV VF).toNat = c ∧
      (x ≠ VF → ((s.writeFlagAndResult x y f g).getV x).toNat = r (s.getV x).toNat (s.getV y).toNat)) := by
  refine ⟨fun ho => ⟨?_, fun hx => ?_⟩, fun ho => ⟨?_, fun hx => ?_⟩⟩
  · rw [s.writeFlagAndResult_sequential x y f g ho]
    simp only [if_true, hg, apply_ite BitVec.toNat, hf]
  · rw [s.writeFlagAndResult_sequential x y f g ho, if_neg hx.symm, if_pos rfl, hf]
  · rw [s.writeFlagAndResult_resultThenFlag x y f g ho, if_pos rfl, hf]
  · rw [s.writeFlagAndResult_resultThenFlag x y f g ho, if_neg hx, if_pos rfl, hg]

/-- The same for the shifts, which read `x` alone: with x = F the last write stands, in sequence the flag shifted. -/
theorem State.writeFlagAndResult_shift {f g : Byte → Byte} {r : Nat → Nat} {c : Nat}
    (hg : ∀ a, (g a).toNat = r a.toNat) (hf : (f (s.getV x)).toNat = c) :
    let t := s.writeFlagAndResult x x (fun a _ => f a) fun a _ => g a
    (x ≠ VF → (t.getV x).toNat = r (s.getV x).toNat ∧ (t.getV VF).toNat = c) ∧
    (x = VF → s.params.aluVfOrder = .sequential → (t.getV VF).toNat = r c) ∧
    (x = VF → s.params.aluVfOrder = .resultThenFlag → (t.getV VF).toNat = c) := by
  obtain ⟨hseq, hrtf⟩ := s.writeFlagAndResult_toNat x (f := fun a _ => f a) (g := fun a _ => g a)
    (r := fun m _ => r m) (fun a _ => hg a) hf
  refine ⟨fun hx => ?_, fun hx ho => ?_, fun _ ho => (hrtf ho).1⟩
  · cases ho : s.params.aluVfOrder with
    | sequential =>
      obtain ⟨hresult, hflag⟩ := hseq ho
      exact ⟨hresult.trans (by rw [if_neg hx]), hflag hx⟩
    | resultThenFlag =>
      obtain ⟨hflag, hresult⟩ := hrtf ho
      exact ⟨hresult hx, hflag⟩
  · obtain ⟨hresult, -⟩ := hseq ho
    subst hx
    exact hresult

end

/-! ### The statements -/

/-- Settles O37: the sum and the carry are formed before either write, and the later write stands. -/
theorem addVVSetsTheCarry : Obligations.AddVVSetsTheCarry := by
  refine ⟨fun x y => decodesTo_of_formXYN (op := 0x8) (n := 0x4) rfl fun _ => rfl, fun x y s =>
    ⟨_, rfl, onlyV_of_frame (s.writeCarryAndSum_frame x y), fun k => s.writeCarryAndSum_getV_other y,
      fun h => ?_, fun h => ?_⟩⟩
  · rw [s.writeCarryAndSum_getV_result y h, BitVec.toNat_add]
  · rw [s.writeCarryAndSum_getV_flag y h, carryFlag_toNat]

/-- Settles O38: flag and result under both orders, with the difference of the operands each way round. -/
theorem subtractionsSetTheStrictFlag : Obligations.SubtractionsSetTheStrictFlag := by
  refine ⟨fun x y => ⟨decodesTo_of_formXYN (op := 0x8) (n := 0x5) rfl fun _ => rfl,
      decodesTo_of_formXYN (op := 0x8) (n := 0x7) rfl fun _ => rfl⟩, fun x y s => ?_, fun x y s => ?_⟩
  · exact ⟨_, rfl, onlyV_of_frame (s.writeFlagAndResult_frame x y _ _),
      fun k => s.writeFlagAndResult_getV_other y _ _, _, rfl,
      s.writeFlagAndResult_toNat y (r := fun m n => (m + 256 - n) % 256) byte_sub_toNat (greaterFlag_toNat _ _)⟩
  · exact ⟨_, rfl, onlyV_of_frame (s.writeFlagAndResult_frame x y _ _),
      fun k => s.writeFlagAndResult_getV_other y _ _, _, rfl,
      s.writeFlagAndResult_toNat y (r := fun m n => (n + 256 - m) % 256) (fun a b => byte_sub_toNat b a)
        (greaterFlag_toNat _ _)⟩

/-- Settles O39: flag and result of the two shifts; the flag shifted once more is 0 to the right, doubled to the left. -/
theorem shiftsKeepTheBitShiftedOut : Obligations.ShiftsKeepTheBitShiftedOut := by
  refine ⟨fun x y => ⟨decodesTo_of_formXYN (op := 0x8) (n := 0x6) rfl fun _ => rfl,
      decodesTo_of_formXYN (op := 0x8) (n := 0xE) rfl fun _ => rfl⟩, fun x y s => ?_, fun x y s => ?_⟩
  · have hshift (a : Byte) : (a >>> 1).toNat = a.toNat / 2 := BitVec.toNat_ushiftRight a 1
    obtain ⟨hother, hseq, hrtf⟩ := s.writeFlagAndResult_shift (x := x) (g := (· >>> 1)) (r := (· / 2))
      hshift (lowBitFlag_toNat _)
    exact ⟨_, rfl, onlyV_of_frame (s.writeFlagAndResult_frame x x _ _),
      fun k => s.writeFlagAndResult_getV_other x _ _, hother, fun hx ho => (hseq hx ho).trans (by omega), hrtf⟩
  · have hshift (a : Byte) : (a <<< 1).toNat = 2 * a.toNat % 256 := by
      rw [BitVec.toNat_shiftLeft, Nat.shiftLeft_eq, Nat.mul_comm]
    obtain ⟨hother, hseq, hrtf⟩ := s.writeFlagAndResult_shift (x := x) (g := (· <<< 1)) (r := (2 * · % 256))
      hshift (highBitFlag_toNat _)
    exact ⟨_, rfl, onlyV_of_frame (s.writeFlagAndResult_frame x x _ _),
      fun k => s.writeFlagAndResult_getV_other x _ _, hother, fun hx ho => (hseq hx ho).trans (by omega), hrtf⟩

/-- Settles O35: the words, and one register write each, of the byte, the sum modulo 256 and the other register. -/
theorem loadsAndImmediateAdd : Obligations.LoadsAndImmediateAdd :=
  ⟨fun _ _ => ⟨decodesTo_of_formXKK (op := 0x6) rfl fun _ => rfl, decodesTo_of_formXKK (op := 0x7) rfl fun _ => rfl⟩,
    fun _ _ => decodesTo_of_formXYN (op := 0x8) (n := 0x0) rfl fun _ => rfl,
    fun x _ _ s => ⟨complete_setV s x rfl, complete_setV s x (BitVec.toNat_add _ _), complete_setV s x rfl⟩⟩

/-- Settles O36: the words, and one register write each, of the bitwise result. -/
theorem logicWritesVxAlone : Obligations.LogicWritesVxAlone :=
  ⟨fun _ _ => ⟨decodesTo_of_formXYN (op := 0x8) (n := 0x1) rfl fun _ => rfl,
      decodesTo_of_formXYN (op := 0x8) (n := 0x2) rfl fun _ => rfl,
      decodesTo_of_formXYN (op := 0x8) (n := 0x3) rfl fun _ => rfl⟩,
    fun x _ s => ⟨complete_setV s x (BitVec.toNat_or _ _), complete_setV s x (BitVec.toNat_and _ _),
      complete_setV s x (BitVec.toNat_xor _ _)⟩⟩

/-- Settles O40: the word, and one register write of the masked random byte. -/
theorem rndMasksTheRandomByte : Obligations.RndMasksTheRandomByte :=
  ⟨fun _ _ => decodesTo_of_formXKK (op := 0xC) rfl fun _ => rfl,
    fun x _ s => complete_setV s x (BitVec.toNat_and _ _)⟩

end Sys2Proof.Machine

/-! ## Memory and index (spec/43_memory_index.md R93 to R99) -/

namespace Sys2Proof.Machine

/-! ### Words and digits -/

/-- Format X, whose low byte is fixed (R54). -/
theorem decodesTo_of_formX {i : Instr} {op : BitVec 4} {kk : Byte} {x : RegIdx} (hi : encode i = formXKK op x kk)
    (hwf : ∀ p, WellFormed p i = true) : DecodesTo (0x1000 * op.toNat + kk.toNat + 0x100 * x.val) i := by
  rw [Nat.add_right_comm]
  exact decodesTo_of_formXKK hi hwf

@[simp] theorem decimalDigits_length (v : Byte) : (decimalDigits v).length = 3 := rfl

/-! ### The check of the last address (R93) -/

section
variable (s : State) {last : Nat}

/-- Past memory the check takes the fault, whatever would have followed it. -/
theorem complete_checkLast_of_gt (e : Except Raise State) (h : 0xFFF < last) :
    ∃ t, complete s (checkLast last >>= fun _ => e) = .next t ∧ FaultTaken s t .memoryOutOfRange 0x1000 := by
  rw [checkLast_of_gt h]
  exact ⟨_, rfl, s.takeFault_faultTaken _⟩

/-- Bytes stored up to the checked address, as an instruction. -/
theorem complete_checkLast_writeBytes {a : Nat} {bs : List Byte} (hlast : a + bs.length = last + 1)
    (h : last ≤ 0xFFF) :
    ∃ t, complete s (checkLast last >>= fun _ => writeBytes s a bs) = .next t ∧
      (∀ k (hk : k < bs.length), t.byteAt (a + k) = bs[k]) ∧
      (∀ b, b < a ∨ last < b → t.byteAt b = s.byteAt b) ∧ t = { s with mem := t.mem } := by
  obtain ⟨t, ht, hframe, hbytes, -⟩ := writeBytes_of_le s bs (a := a) (.inr (by omega))
  refine ⟨t, ?_, fun k hk => ?_, fun b hb => ?_, hframe⟩
  · rw [checkLast_of_le h]
    exact congrArg (complete s) ht
  · rw [hbytes, dif_pos (by omega)]
    simp only [Nat.add_sub_cancel_left]
  · rw [hbytes, dif_neg (by omega)]

end

/-! ### Instructions inside memory -/

/-- Fx65 inside memory loads V0 to Vx from I to I + x, and changes nothing else (R99). -/
theorem exec_ldVMem_of_le {s : State} {x : RegIdx} (h : s.I.toNat + x.val ≤ 0xFFF) :
    ∃ t, exec (.ldVMem x) s = .next t ∧
      (∀ k : RegIdx, k ≤ x → t.getV k = s.byteAt (s.I.toNat + k.val)) ∧
      (∀ k : RegIdx, x < k → t.getV k = s.getV k) ∧ OnlyV s t := by
  obtain ⟨hframe, hregs⟩ := s.loadRegs_spec 0 ((List.range (x.val + 1)).map fun k => s.byteAt (s.I.toNat + k))
  refine ⟨_, ?_, fun k hk => ?_, fun k hk => ?_, onlyV_of_frame hframe⟩
  · have hread := readBytes_of_le s (a := s.I.toNat) (n := x.val + 1) (.inr (by omega))
    simp only [exec, execLdVMem, checkLast_of_le h, hread]
    rfl
  · have hin : k.val < x.val + 1 := Nat.lt_succ_of_le hk
    rw [hregs, dif_pos (by simpa using hin)]
    simp
  · have hout : ¬ k.val < x.val + 1 := Nat.not_lt.mpr hk
    rw [hregs, dif_neg (by simpa using hout)]

/-! ### The statements -/

/-- Settles O44: the three digits are bytes of the list stored, after the check of I + 2. -/
theorem ldBVStoresTheDigits : Obligations.LdBVStoresTheDigits := by
  refine ⟨fun x => decodesTo_of_formX (op := 0xF) (kk := 0x33) rfl fun _ => rfl, fun x s h => ?_,
    fun x s h => complete_checkLast_of_gt s _ h⟩
  obtain ⟨t, ht, hstored, hother, hframe⟩ :=
    complete_checkLast_writeBytes s (bs := decimalDigits (s.getV x)) (last := s.I.toNat + 2) rfl h
  have hdigit (k : Nat) (hk : k < (decimalDigits (s.getV x)).length) : (t.byteAt (s.I.toNat + k)).toNat =
      ((decimalDigits (s.getV x)).map BitVec.toNat)[k]'(by rwa [List.length_map]) := by
    rw [hstored k hk, List.getElem_map]
  simp only [decimalDigits_toNat] at hdigit
  exact ⟨t, ht, hdigit 0 (by simp), hdigit 1 (by simp), hdigit 2 (by simp), hother, hframe⟩

/-- Settles O45: the stores of V0 to Vx after the check of I + x. -/
theorem ldMemVStoresTheRegisters : Obligations.LdMemVStoresTheRegisters :=
  ⟨fun _ => decodesTo_of_formX (op := 0xF) (kk := 0x55) rfl fun _ => rfl, fun _ _ => exec_ldMemV_of_le,
    fun _ s => complete_checkLast_of_gt s _⟩

/-- Settles O46: the loads of V0 to Vx after the check of I + x. -/
theorem ldVMemLoadsTheRegisters : Obligations.LdVMemLoadsTheRegisters :=
  ⟨fun _ => decodesTo_of_formX (op := 0xF) (kk := 0x65) rfl fun _ => rfl, fun _ _ => exec_ldVMem_of_le,
    fun _ s => complete_checkLast_of_gt s _⟩

/-- Settles O41: the address field is written into I. -/
theorem ldISetsI : Obligations.LdISetsI :=
  ⟨fun _ => decodesTo_of_formNNN (op := 0xA) rfl fun _ => rfl,
    fun nnn _ => ⟨_, rfl, zext16_toNat nnn, rfl, fun _ => rfl⟩⟩

/-- Settles O42: a bounds-checked write of the unreduced sum into I. -/
theorem addIVIsBounded : Obligations.AddIVIsBounded := by
  refine ⟨fun _ => decodesTo_of_formX (op := 0xF) (kk := 0x1E) rfl fun _ => rfl, fun x s h => ?_, fun x s h => ?_⟩
  · exact ⟨_, congrArg (complete s) (writeI_of_le s h), Nat.mod_eq_of_lt (by omega), rfl, fun _ => rfl⟩
  · exact ⟨_, congrArg (complete s) (writeI_of_gt s h), s.takeFault_faultTaken _⟩

/-- Settles O43: the glyph address as a number, under each value of the parameter. -/
theorem ldFVPointsAtTheGlyph : Obligations.LdFVPointsAtTheGlyph := by
  refine ⟨fun _ => decodesTo_of_formX (op := 0xF) (kk := 0x29) rfl fun _ => rfl, fun x s =>
    ⟨_, rfl, ⟨rfl, fun _ => rfl⟩, fun hmask => ?_, fun hmask => ?_⟩⟩
  · exact (glyphAddr_toNat s.params (s.getV x)).trans (by rw [if_pos hmask])
  · exact (glyphAddr_toNat s.params (s.getV x)).trans (by rw [if_neg (ne_true_of_eq_false hmask)])

end Sys2Proof.Machine

/-! ## Keyboard and timers (spec/44_input_timers.md R100 to R106) -/

namespace Sys2Proof.Machine

/-! ### The key Fx0A gives (R104) -/

section
variable {s : State} (x : RegIdx)

theorem State.pickKey_keyDraw (h : s.keyHeld s.input.keyDraw = true) : s.pickKey = some s.input.keyDraw := if_pos h

theorem exec_ldVK_of_no_key (h : s.pickKey = none) : exec (.ldVK x) s = .next { s with pc := s.pc - 2 } := by
  simp only [exec, execLdVK, h, complete]

theorem exec_ldVK_of_key {k : KeyIdx} (h : s.pickKey = some k) :
    ∃ t, exec (.ldVK x) s = .next t ∧ WritesV s t x k.val := by
  simp only [exec, execLdVK, h]
  exact complete_setV s x (keyByte_toNat k)

end

/-! ### The statements -/

/-- Settles O49: the waiting instruction, and the register write of the key picked, by whether `pickKey` gives one; the key
drawn is picked where it is held. -/
theorem ldVKWaitsForAKey : Obligations.LdVKWaitsForAKey := by
  refine ⟨fun x => decodesTo_of_formX (op := 0xF) (kk := 0x0A) rfl fun _ => rfl, fun x s hnone => ?wait,
    fun x s ⟨k, hk⟩ => ?held, fun x s k hk hdraw => ?drawn⟩
  case wait => exact ⟨_, exec_ldVK_of_no_key x (s.pickKey_eq_none.mpr hnone), rfl, rfl, fun _ => rfl⟩
  case held =>
    cases hpick : s.pickKey with
    | none => exact absurd (s.pickKey_eq_none.mp hpick k) (ne_false_of_eq_true hk)
    | some picked =>
      obtain ⟨t, ht, hwrites⟩ := exec_ldVK_of_key x hpick
      exact ⟨t, picked, ht, State.keyHeld_of_pickKey hpick, hwrites⟩
  case drawn =>
    subst hdraw
    exact exec_ldVK_of_key x (State.pickKey_keyDraw hk)

/-- Settles O47: the two words, and the conditional skip on a held and on a released key of the low nibble. -/
theorem skipsOnAKey : Obligations.SkipsOnAKey := by
  refine ⟨fun x => ⟨decodesTo_of_formX (op := 0xE) (kk := 0x9E) rfl fun _ => rfl,
    decodesTo_of_formX (op := 0xE) (kk := 0xA1) rfl fun _ => rfl⟩, fun x s k hk => ?_⟩
  obtain rfl : keyOf (s.getV x) = k := Fin.ext ((keyOf_val _).trans hk.symm)
  exact ⟨complete_skipIf s Iff.rfl, complete_skipIf s (Bool.not_eq_true' _).to_iff⟩

/-- Settles O48: one register write of DT, as it stands when the instruction runs. -/
theorem ldVDTReadsTheTimer : Obligations.LdVDTReadsTheTimer :=
  ⟨fun _ => decodesTo_of_formX (op := 0xF) (kk := 0x07) rfl fun _ => rfl, fun x s => complete_setV s x rfl⟩

/-- Settles O50: the two words, and one assignment to the timer each; only the first sets `lastTick` too. -/
theorem timersAreSet : Obligations.TimersAreSet :=
  ⟨fun _ => ⟨decodesTo_of_formX (op := 0xF) (kk := 0x15) rfl fun _ => rfl,
      decodesTo_of_formX (op := 0xF) (kk := 0x18) rfl fun _ => rfl⟩,
    fun _ _ => ⟨⟨_, rfl, rfl, rfl, rfl, fun _ => rfl⟩, ⟨_, rfl, rfl, rfl, fun _ => rfl⟩⟩⟩

end Sys2Proof.Machine

/-! ## Cycles that fault and cycles that do not (spec/60_exceptions.md R107, R108, R115, R116, R125) -/

namespace Sys2Proof.Machine

/-! ### What a cycle in Running does -/

section
variable {s t : State} {input : CycleInput} {rest : List HostCall}

/-- A cycle in Running raises in its fetch or advance, or executes what is decoded at pc (R62, R109). -/
theorem step_of_runsCycle_cases (hrun : s.runsCycle input rest) :
    (∃ r, fetchAndAdvance (State.beginCycle { s with calls := rest } input) = .error r ∧
      step s = .next (State.takeFault (State.beginCycle { s with calls := rest } input) s.pc r)) ∨
    (s.pc.toNat ≤ 0xFFD ∧ step s = execute s.decodedAtPc (s.executing input rest)) := by
  cases hf : fetchAndAdvance (State.beginCycle { s with calls := rest } input) with
  | error r => exact .inl ⟨r, rfl, step_of_fetch_error hrun hf⟩
  | ok du =>
    obtain ⟨hpc, -, -⟩ := fetchAndAdvance_ok hf
    exact .inr ⟨hpc, step_of_runsCycle hrun hpc⟩

theorem execute_next (d : Decoded) (s : State) : ∃ t, execute d s = .next t := by
  cases d with
  | reject why => exact ⟨s.endCycle, rfl⟩
  | accept i =>
    obtain ⟨u, hu⟩ := exec_next i s
    exact ⟨u.endCycle, execute_accept hu⟩

theorem execute_cases {d : Decoded} (h : execute d s = .next t) :
    (∃ why, d = .reject why ∧ t = s.endCycle) ∨ ∃ i u, d = .accept i ∧ exec i s = .next u ∧ t = u.endCycle := by
  cases d with
  | reject why => exact .inl ⟨why, rfl, (Host.Outcome.next.inj h).symm⟩
  | accept i =>
    obtain ⟨u, hu⟩ := exec_next i s
    exact .inr ⟨i, u, rfl, hu, Host.Outcome.next.inj (h.symm.trans (execute_accept hu))⟩

/-- Everything a cycle in Running can have done: taken a fault before its instruction, or ended the cycle of the decoded
word. -/
theorem runsCycle_cases (hrun : s.runsCycle input rest) (h : step s = .next t) :
    (∃ r, fetchAndAdvance (State.beginCycle { s with calls := rest } input) = .error r ∧
      t = State.takeFault (State.beginCycle { s with calls := rest } input) s.pc r) ∨
    (∃ why, s.decodedAtPc = .reject why ∧ t = (s.executing input rest).endCycle) ∨
    (s.pc.toNat ≤ 0xFFD ∧ ∃ i u, s.decodedAtPc = .accept i ∧ exec i (s.executing input rest) = .next u ∧
      t = u.endCycle) := by
  obtain ⟨r, hr, hstep⟩ | ⟨hpc, hstep⟩ := step_of_runsCycle_cases hrun
  · exact .inl ⟨r, hr, Host.Outcome.next.inj (h.symm.trans hstep)⟩
  · exact .inr ((execute_cases (hstep.symm.trans h)).imp_right fun hexec => ⟨hpc, hexec⟩)

theorem State.runsCycle.executing_status (hrun : s.runsCycle input rest) :
    (s.executing input rest).status = .running := by
  obtain ⟨hs, -, -⟩ := hrun
  exact hs

end

/-- Settles O8: a cycle in Running has a next state by `step_of_runsCycle_cases`, and so has every operation but the one
whose clock runs backward. -/
theorem onlyABackwardClockIsRefused : Obligations.OnlyABackwardClockIsRefused := by
  intro s
  cases hcalls : s.calls with
  | nil => exact .inl ⟨s, by simp only [step, hcalls, idle]⟩
  | cons call rest =>
    have hstep := step_of_calls hcalls
    cases call with
    | reset now0 => exact .inl ⟨_, hstep⟩
    | load image => exact .inl ⟨_, hstep⟩
    | loadUnreadable => exact .inl ⟨_, hstep⟩
    | cycle input =>
      by_cases hs : s.status = .running
      · by_cases hnow : input.now < s.input.now
        · refine .inr ⟨hstep.trans ?_, input, rest, rfl, hs, hnow⟩
          simp only [perform, cycle, hs, if_pos hnow]
        · obtain ⟨r, -, hfault⟩ | ⟨-, hexec⟩ := step_of_runsCycle_cases (s := s) ⟨hs, hcalls, not_lt.mp hnow⟩
          · exact .inl ⟨_, hfault⟩
          · rw [hexec]
            exact .inl (execute_next _ _)
      · exact .inl ⟨_, hstep.trans (cycle_of_not_running hs)⟩

/-! ### The timer step (R115, R116) -/

section
variable {s : State}

theorem State.timerStep_of_due (h : s.tickDue = true) :
    s.timerStep = { s with DT := decrement s.DT, ST := decrement s.ST, lastTick := s.input.now } :=
  if_pos h

theorem State.timerStep_of_not_due (h : ¬ s.tickDue = true) : s.timerStep = s := if_neg h

/-- No timer step is due where less than 1/60 s has passed, or exactly that and the draw says no (R115). -/
theorem State.not_tickDue (h : s.input.now - s.lastTick < Config.tickPeriod ∨
    (s.input.now - s.lastTick = Config.tickPeriod ∧ s.input.tickAtBoundary = false)) : ¬ s.tickDue = true := by
  rw [s.tickDue_iff]
  rintro (hgt | ⟨heq, hdraw⟩) <;> obtain hlt | ⟨heq', hdraw'⟩ := h
  · exact lt_asymm hgt hlt
  · exact hgt.ne' heq'
  · exact hlt.ne heq
  · exact Bool.false_ne_true (hdraw'.symm.trans hdraw)

end

@[simp] theorem State.endCycle_status (s : State) : s.endCycle.status = s.status := by
  rcases s.endCycle_cases with h | h <;> rw [h]
  exact s.timerStep_status

/-- Settles O51: the end of a cycle by its status, and the timer step by whether a tick is due. -/
theorem timerStepDecrementsBoth : Obligations.TimerStepDecrementsBoth := by
  refine ⟨fun s => ⟨fun ⟨r, hr⟩ => State.endCycle_faulted hr, fun hs =>
    State.endCycle_of_not_faulted fun r hr => hs ⟨r, hr⟩⟩, fun s => ⟨fun hdue => ?_, fun hnot => ?_⟩⟩
  · rw [State.timerStep_of_due (s.tickDue_iff.mpr hdue)]
    exact ⟨decrement_toNat s.DT, decrement_toNat s.ST, rfl, rfl⟩
  · exact State.timerStep_of_not_due (State.not_tickDue hnot)

/-- What the end of a cycle does to DT (R116). -/
theorem State.endCycle_DT (s : State) :
    (s.endCycle.DT = s.DT ∨
      (s.endCycle.DT.toNat + 1 = s.DT.toNat ∧ Config.tickPeriod ≤ s.input.now - s.lastTick)) ∧
    (¬ s.endCycle.isFaulted → Config.tickPeriod < s.input.now - s.lastTick →
      s.endCycle.DT.toNat = s.DT.toNat - 1) := by
  refine ⟨?_, fun hfaulted hgt => ?_⟩
  · obtain hend | hend := s.endCycle_cases
    · exact .inl (congrArg State.DT hend)
    rw [hend]
    by_cases hdue : s.tickDue = true
    · have hDT : s.timerStep.DT.toNat = s.DT.toNat - 1 := by
        rw [State.timerStep_of_due hdue]
        exact decrement_toNat s.DT
      by_cases hzero : s.DT.toNat = 0
      · exact .inl (BitVec.eq_of_toNat_eq (by omega))
      · refine .inr ⟨by omega, ?_⟩
        obtain hgt | ⟨heq, -⟩ := s.tickDue_iff.mp hdue
        · exact hgt.le
        · exact heq.ge
    · exact .inl (congrArg State.DT (State.timerStep_of_not_due hdue))
  · have hend : s.endCycle = s.timerStep :=
      State.endCycle_of_not_faulted fun r hr => hfaulted ⟨r, s.endCycle_status.trans hr⟩
    rw [hend, State.timerStep_of_due (s.tickDue_iff.mpr (.inl hgt))]
    exact decrement_toNat s.DT

/-- Settles O52: a fault before the instruction keeps DT, and what a word other than Fx15 leaves of the timer and of its
period goes into the end of the cycle. -/
theorem delayTimerFallsByOneAtMost : Obligations.DelayTimerFallsByOneAtMost := by
  intro s t input rest hrun h hFx15
  obtain ⟨r, -, rfl⟩ | ⟨why, -, rfl⟩ | ⟨-, i, u, hi, hexec, rfl⟩ := runsCycle_cases hrun h
  · exact ⟨.inl rfl, fun hfaulted => absurd ⟨_, rfl⟩ hfaulted⟩
  · exact (s.executing input rest).endCycle_DT
  · have hkeeps : ¬ ∃ x, i = .ldDTV x := fun ⟨x, hx⟩ => hFx15 x (hx ▸ hi)
    have hDT : u.DT = s.DT := by
      by_contra hne
      exact hkeeps ((exec_effect hexec).DT_ne hne)
    have htick : u.lastTick = s.lastTick := by
      by_contra hne
      exact hkeeps ((exec_effect hexec).lastTick_ne hne)
    have hinput : u.input = input := (exec_keepsHost hexec).input
    rw [← hDT, ← htick, ← hinput]
    exact u.endCycle_DT

/-! ### The causes of a fault (R107) -/

/-- What the instruction `i`, run in `s`, raises a fault for, with the kind and the value of the fault (R107). -/
inductive FaultCause (s : State) : Instr → FaultKind → Nat → Prop where
  | callFull (nnn : BitVec 12) (h : s.sp.val = 16) : FaultCause s (.call nnn) .stackOverflow 16
  | retEmpty (h : s.sp.val = 0) : FaultCause s .ret .stackUnderflow 0
  | sprite (x y : RegIdx) {n : BitVec 4} (h : 0x1000 < s.I.toNat + n.toNat) :
      FaultCause s (.drw x y n) .memoryOutOfRange 0x1000
  | digits (x : RegIdx) (h : 0xFFF < s.I.toNat + 2) : FaultCause s (.ldBV x) .memoryOutOfRange 0x1000
  | store {x : RegIdx} (h : 0xFFF < s.I.toNat + x.val) : FaultCause s (.ldMemV x) .memoryOutOfRange 0x1000
  | load {x : RegIdx} (h : 0xFFF < s.I.toNat + x.val) : FaultCause s (.ldVMem x) .memoryOutOfRange 0x1000
  | skip {i : Instr} (hi : IsSkip i) (h : 0xFFF < s.pc.toNat + 2) : FaultCause s i .pcOutOfRange (s.pc.toNat + 2)
  | jump {nnn : BitVec 12} (h : 0xFFF < nnn.toNat + (s.getV 0).toNat) :
      FaultCause s (.jpV0 nnn) .pcOutOfRange (nnn.toNat + (s.getV 0).toNat)
  | index {x : RegIdx} (h : 0xFFF < s.I.toNat + (s.getV x).toNat) :
      FaultCause s (.addIV x) .indexOutOfRange (s.I.toNat + (s.getV x).toNat)

theorem OnlyV.status_eq {s t : State} (h : OnlyV s t) : t.status = s.status := by
  obtain ⟨hframe, -⟩ := h
  rw [hframe]

theorem OnlyPc.status_eq {s t : State} (h : OnlyPc s t) : t.status = s.status := by
  obtain ⟨hframe, -⟩ := h
  rw [hframe]

/-- `o`, the outcome of the instruction `i` in `s`, has the status of `s` or is a fault taken for a cause of `i`. -/
def FaultsForCause (i : Instr) (s : State) (o : Host.Outcome State Fault Refusal) : Prop :=
  ∃ t, o = .next t ∧ (t.status = s.status ∨ ∃ kind value, FaultCause s i kind value ∧ FaultTaken s t kind value)

namespace FaultsForCause

variable {i : Instr} {s t : State} {o : Host.Outcome State Fault Refusal}

theorem keeps (h : o = .next t) (hstatus : t.status = s.status) : FaultsForCause i s o := ⟨t, h, .inl hstatus⟩

theorem faults {kind : FaultKind} {value : Nat} (hcause : FaultCause s i kind value)
    (h : ∃ t, o = .next t ∧ FaultTaken s t kind value) : FaultsForCause i s o := by
  obtain ⟨t, ht, htaken⟩ := h
  exact ⟨t, ht, .inr ⟨kind, value, hcause, htaken⟩⟩

theorem takeFault {r : Raise} (hcause : FaultCause s i r.kind r.value) (h : o = .next (s.takeFault s.instrAddr r)) :
    FaultsForCause i s o :=
  .faults hcause ⟨_, h, s.takeFault_faultTaken r⟩

/-- A skip faults where it leaves memory (R68). -/
theorem skipIf (hi : IsSkip i) (c : Bool) : FaultsForCause i s (complete s (skipIf s c)) := by
  obtain ⟨t, ht, hno, hle, hgt⟩ := complete_skipIf s (c := c) Iff.rfl
  by_cases hc : c = true
  · by_cases hpc : s.pc.toNat + 2 ≤ 0xFFF
    · obtain ⟨-, honly⟩ := hle hc hpc
      exact .keeps ht honly.status_eq
    · have hout := Nat.lt_of_not_le hpc
      exact .faults (.skip hi hout) ⟨t, ht, hgt hc hout⟩
  · exact .keeps ht (congrArg State.status (hno hc))

/-- Fx33 and Fx55 fault where their last address is past memory (R93). -/
theorem checkLast_writeBytes {last : Nat} {bs : List Byte} (hlast : s.I.toNat + bs.length = last + 1)
    (hcause : 0xFFF < last → FaultCause s i .memoryOutOfRange 0x1000) :
    FaultsForCause i s (complete s (checkLast last >>= fun _ => writeBytes s s.I.toNat bs)) := by
  by_cases hle : last ≤ 0xFFF
  · obtain ⟨t, ht, -, -, hframe⟩ := complete_checkLast_writeBytes s hlast hle
    exact .keeps ht (by rw [hframe])
  · have hgt := Nat.lt_of_not_le hle
    exact .faults (hcause hgt) (complete_checkLast_of_gt s _ hgt)

end FaultsForCause

/-- No instruction faults but for one of the causes; that I is in memory fixes the value of a DRW fault (R66). -/
theorem exec_faultsForCause (i : Instr) {s : State} (hI : s.I.toNat ≤ 0xFFF) : FaultsForCause i s (exec i s) := by
  cases i with
  | cls | sys _ | jp _ | ldVB _ _ | addVB _ _ | ldVV _ _ | orVV _ _ | andVV _ _ | xorVV _ _ | ldI _ | rnd _ _ | ldVDT _
  | ldDTV _ | ldSTV _ | ldFV _ => exact .keeps rfl rfl
  | sub _ _ | shr _ _ | subn _ _ | shl _ _ => exact .keeps rfl (by rw [State.writeFlagAndResult_frame])
  | addVV _ _ => exact .keeps rfl (by rw [State.writeCarryAndSum_frame])
  | seVB _ _ | sneVB _ _ | seVV _ _ | sneVV _ _ | skp _ | sknp _ => exact .skipIf (by trivial) _
  | ldVK x =>
    cases hpick : s.pickKey with
    | none => exact .keeps (exec_ldVK_of_no_key x hpick) rfl
    | some k =>
      obtain ⟨t, ht, -, -, honly⟩ := exec_ldVK_of_key x hpick
      exact .keeps ht honly.status_eq
  | ret =>
    by_cases hsp : s.sp.val = 0
    · exact .takeFault (.retEmpty hsp) (exec_ret_of_empty hsp)
    · have hpos := Nat.pos_of_ne_zero hsp
      exact .keeps (exec_ret_of_succ (k := ⟨s.sp.val - 1, by omega⟩) (Nat.sub_add_cancel hpos).symm) rfl
  | call nnn =>
    by_cases hsp : s.sp.val = 16
    · exact .takeFault (.callFull nnn hsp) (exec_call_of_full nnn hsp)
    · exact .keeps (exec_call_of_lt nnn (k := ⟨s.sp.val, by omega⟩) rfl) rfl
  | jpV0 nnn =>
    by_cases hle : nnn.toNat + (s.getV 0).toNat ≤ 0xFFF
    · obtain ⟨t, ht, -, honly⟩ := complete_writePc_of_le s hle
      exact .keeps ht honly.status_eq
    · have hgt := Nat.lt_of_not_le hle
      exact .faults (.jump hgt) (complete_writePc_of_gt s hgt)
  | addIV x =>
    by_cases hle : s.I.toNat + (s.getV x).toNat ≤ 0xFFF
    · exact .keeps (congrArg (complete s) (writeI_of_le s hle)) rfl
    · have hgt := Nat.lt_of_not_le hle
      exact .takeFault (.index hgt) (congrArg (complete s) (writeI_of_gt s hgt))
  | drw x y n =>
    by_cases hle : s.I.toNat + n.toNat ≤ 0x1000
    · exact .keeps (exec_drw_of_le (.inr hle)) rfl
    · have hgt := Nat.lt_of_not_le hle
      exact .takeFault (.sprite x y hgt) (exec_drw_of_gt (by omega) hI hgt)
  | ldBV x => exact .checkLast_writeBytes rfl (.digits x)
  | ldMemV x => exact .checkLast_writeBytes (by simp [Nat.add_assoc]) .store
  | ldVMem x =>
    by_cases hle : s.I.toNat + x.val ≤ 0xFFF
    · obtain ⟨t, ht, -, -, honly⟩ := exec_ldVMem_of_le hle
      exact .keeps ht honly.status_eq
    · have hgt := Nat.lt_of_not_le hle
      exact .faults (.load hgt) (complete_checkLast_of_gt s _ hgt)

/-- The fault an instruction took in a cycle, as the kind and the value of the record. -/
theorem faultCause_of_exec {i : Instr} {s u : State} {r : FaultRecord} (hexec : exec i s = .next u)
    (hs : s.status = .running) (hu : u.status = .faulted r) (hI : s.I.toNat ≤ 0xFFF) :
    FaultCause s i r.kind r.faultValue := by
  obtain ⟨t, ht, hcause⟩ := exec_faultsForCause i hI
  obtain rfl : t = u := Host.Outcome.next.inj (ht.symm.trans hexec)
  obtain hkeeps | ⟨kind, value, hcause, hframe, -⟩ := hcause
  · cases hs.symm.trans (hkeeps.symm.trans hu)
  · have hrecord : Status.faulted r = .faulted ⟨kind, s.pc - 2, value⟩ := hu.symm.trans (congrArg State.status hframe)
    obtain rfl := Status.faulted.inj hrecord
    exact hcause

/-- A fetch or an advance from inside memory raises at the last two addresses alone (R37, R63). -/
theorem fetchAndAdvance_error {s : State} {r : Raise} (hpc : s.pc.toNat ≤ 0xFFF) (h : fetchAndAdvance s = .error r) :
    (s.pc.toNat = 0xFFE ∧ r = ⟨.pcOutOfRange, 0x1000⟩) ∨ (s.pc.toNat = 0xFFF ∧ r = ⟨.memoryOutOfRange, 0x1000⟩) := by
  by_cases hle : s.pc.toNat ≤ 0xFFD
  · rw [fetchAndAdvance_of_le s hle] at h
    cases h
  by_cases hFFE : s.pc.toNat = 0xFFE
  · rw [fetchAndAdvance_at_FFE s hFFE] at h
    exact .inl ⟨hFFE, (Except.error.inj h).symm⟩
  · have hFFF : s.pc.toNat = 0xFFF := by omega
    rw [fetchAndAdvance_of_ge s hFFF.ge, hFFF] at h
    exact .inr ⟨hFFF, (Except.error.inj h).symm⟩

/-- Settles O54: the fetch and the advance raise at the last two addresses, and elsewhere the decoded instruction had one
of the causes of `FaultCause`, its pc being two past the one the cycle fetched from. -/
theorem faultsHaveOnlyTheListedCauses : Obligations.FaultsHaveOnlyTheListedCauses := by
  refine ⟨⟨rfl, rfl, rfl, rfl, rfl⟩, fun s t input rest ⟨kind, faultPc, value⟩ hinv hrun h hr => ?_⟩
  obtain ⟨raise, hraise, rfl⟩ | ⟨why, -, rfl⟩ | ⟨hpc, i, u, hi, hexec, rfl⟩ := runsCycle_cases hrun h
  · cases hr
    obtain ⟨hFFE, rfl⟩ | ⟨hFFF, rfl⟩ :=
      fetchAndAdvance_error (s := State.beginCycle { s with calls := rest } input) hinv.pc_le hraise
    · exact .inr (.inl ⟨hFFE, rfl, rfl⟩)
    · exact .inl ⟨hFFF, rfl, rfl⟩
  · rw [State.endCycle_status, hrun.executing_status] at hr
    cases hr
  · rw [State.endCycle_status] at hr
    have hadvance : (s.executing input rest).pc.toNat = s.pc.toNat + 2 := by
      show (s.pc + 2).toNat = _
      bv_omega
    have hcause : FaultCause (s.executing input rest) i kind value :=
      faultCause_of_exec hexec hrun.executing_status hr hinv.I_le
    refine .inr (.inr ⟨hpc, i, hi, ?_⟩)
    cases hcause with
    | callFull nnn h => exact .inl ⟨rfl, rfl, h, nnn, rfl⟩
    | retEmpty h => exact .inr (.inl ⟨rfl, rfl, h, rfl⟩)
    | sprite x y h => exact .inr (.inr (.inl ⟨rfl, rfl, .inl ⟨x, y, _, rfl, h⟩⟩))
    | digits x h => exact .inr (.inr (.inl ⟨rfl, rfl, .inr (.inl ⟨x, rfl, h⟩)⟩))
    | store h => exact .inr (.inr (.inl ⟨rfl, rfl, .inr (.inr ⟨_, .inl rfl, h⟩)⟩))
    | load h => exact .inr (.inr (.inl ⟨rfl, rfl, .inr (.inr ⟨_, .inr rfl, h⟩)⟩))
    | skip hskip h => exact .inr (.inr (.inr (.inl ⟨rfl, congrArg (· + 2) hadvance, by omega, hskip⟩)))
    | jump h => exact .inr (.inr (.inr (.inr (.inl ⟨rfl, _, rfl, rfl, h⟩))))
    | index h => exact .inr (.inr (.inr (.inr (.inr ⟨rfl, _, rfl, rfl, h⟩))))

/-! ### What a fault leaves (R108) -/

/-- An instruction that changes the status takes a fault. -/
theorem Effect.eq_takeFault {i : Instr} {s t : State} (h : Effect i s t) (hne : t.status ≠ s.status) :
    ∃ r, t = s.takeFault s.instrAddr r := by
  cases h with
  | faulted r => exact ⟨r, rfl⟩
  | _ => exact absurd rfl hne

theorem State.executing_instrAddr (s : State) (input : CycleInput) (rest : List HostCall) :
    (s.executing input rest).instrAddr = s.pc :=
  BitVec.add_sub_cancel s.pc 2

/-- A cycle that faults takes a fault from its start, with the pc it fetched from. -/
theorem eq_takeFault_of_runsCycle {s t : State} {input : CycleInput} {rest : List HostCall} {r : FaultRecord}
    (hrun : s.runsCycle input rest) (h : step s = .next t) (hr : t.status = .faulted r) :
    ∃ raise, t = State.takeFault (State.beginCycle { s with calls := rest } input) s.pc raise := by
  obtain ⟨raise, -, rfl⟩ | ⟨why, -, rfl⟩ | ⟨-, i, u, -, hexec, rfl⟩ := runsCycle_cases hrun h
  · exact ⟨raise, rfl⟩
  · rw [State.endCycle_status, hrun.executing_status] at hr
    cases hr
  · rw [State.endCycle_status] at hr
    have hne : u.status ≠ (s.executing input rest).status := by
      rw [hr, hrun.executing_status]
      exact fun h => by cases h
    obtain ⟨raise, rfl⟩ := (exec_effect hexec).eq_takeFault hne
    rw [State.endCycle_faulted hr, State.executing_instrAddr]
    exact ⟨raise, rfl⟩

theorem State.performLoad_of_faulted {s : State} {r : FaultRecord} (h : s.status = .faulted r) (image : List Byte) :
    s.performLoad image = { s with lastLoad := some .loadRefused } := by
  simp only [State.performLoad, h]

/-- Settles O55: a faulting cycle is the fault taken from its start, and from Faulted every operation but
a Reset leaves the status and the architectural state. -/
theorem aFaultChangesNothingElse : Obligations.AFaultChangesNothingElse := by
  refine ⟨fun s t input rest r hrun h hr => ?_, fun s t r hs hreset h => ?_⟩
  · obtain ⟨raise, rfl⟩ := eq_takeFault_of_runsCycle hrun h hr
    obtain rfl := Status.faulted.inj hr
    exact ⟨rfl, rfl, fun _ => rfl⟩
  · obtain ⟨-, rfl⟩ | ⟨now0, rest, hcalls, -⟩ | ⟨image, rest, -, rfl⟩ | ⟨rest, -, rfl⟩ | ⟨input, rest, -, hc⟩ :=
      step_cases h
    · exact ⟨rfl, fun _ => rfl⟩
    · exact absurd hcalls (hreset now0 rest)
    · rw [State.performLoad_of_faulted (s := { s with calls := rest }) hs]
      exact ⟨rfl, fun _ => rfl⟩
    · exact ⟨rfl, fun _ => rfl⟩
    · have hnot : s.status ≠ .running := by simp [hs]
      obtain rfl := Host.Outcome.next.inj (hc.symm.trans (cycle_of_not_running (s := { s with calls := rest }) hnot))
      exact ⟨rfl, fun _ => rfl⟩

end Sys2Proof.Machine

/-! ## Host operations, Fx15 and the ends of a run (spec/70_reset_and_hazards.md R126 to R136) -/

namespace Sys2Proof.Machine

/-! ### Load, by the status and the length of the image (R127, R128, R130) -/

section
variable {s : State} {image : List Byte}

theorem State.performLoad_of_fits (hs : s.status = .unloaded) (hlen : image.length ≤ 3584) :
    s.performLoad image =
      { s.placeBytes 0x200 image with status := .running, lastLoad := some .loaded } := by
  simp only [State.performLoad, hs, Config.programMax, if_neg (Nat.not_lt.mpr hlen), Config.programBase]

theorem State.performLoad_of_tooLarge (hs : s.status = .unloaded) (hlen : 3584 < image.length) :
    s.performLoad image = { s with lastLoad := some (.loadFailed .loadTooLarge) } := by
  simp only [State.performLoad, hs, Config.programMax, if_pos hlen]

theorem State.performLoad_of_not_unloaded (hs : s.status ≠ .unloaded) (image : List Byte) :
    s.performLoad image = { s with lastLoad := some .loadRefused } := by
  cases h : s.status with
  | unloaded => exact absurd h hs
  | running | faulted => simp only [State.performLoad, h]

variable {rest : List HostCall}

theorem step_load (hcalls : s.calls = .load image :: rest) :
    step s = .next (State.performLoad { s with calls := rest } image) :=
  step_of_calls hcalls

theorem step_load_of_tooLarge (hcalls : s.calls = .load image :: rest) (hs : s.status = .unloaded)
    (hlen : 3584 < image.length) :
    step s = .next { s with lastLoad := some (.loadFailed .loadTooLarge), calls := rest } := by
  rw [step_load hcalls, State.performLoad_of_tooLarge (s := { s with calls := rest }) hs hlen]

theorem step_load_of_not_unloaded (hcalls : s.calls = .load image :: rest) (hs : s.status ≠ .unloaded) :
    step s = .next { s with lastLoad := some .loadRefused, calls := rest } := by
  rw [step_load hcalls, State.performLoad_of_not_unloaded (s := { s with calls := rest }) hs]

/-- An accepted Load: each address of the image holds its byte, every other what it held (R127). -/
theorem step_load_of_fits (hcalls : s.calls = .load image :: rest) (hs : s.status = .unloaded)
    (hlen : image.length ≤ 3584) :
    ∃ t, step s = .next t ∧
      (∀ a, t.byteAt a = if h : 0x200 ≤ a ∧ a - 0x200 < image.length then image[a - 0x200] else s.byteAt a) ∧
      t = { s with mem := t.mem, status := .running, lastLoad := some .loaded, calls := rest } := by
  obtain ⟨hframe, hbytes, -⟩ := State.placeBytes_spec { s with calls := rest } 0x200 image
  refine ⟨_, step_load hcalls, ?_⟩
  rw [State.performLoad_of_fits (s := { s with calls := rest }) hs hlen]
  refine ⟨hbytes, ?_⟩
  rw [hframe]

end

/-- Settles O5: a Load by the status and the length of the image; an address of the image is 0x200 and an index. -/
theorem loadCopiesTheImage : Obligations.LoadCopiesTheImage := by
  intro s image rest hcalls
  refine ⟨fun hs hlen => ?_, step_load_of_tooLarge hcalls, step_load_of_not_unloaded hcalls⟩
  obtain ⟨t, hstep, hbytes, hframe⟩ := step_load_of_fits hcalls hs hlen
  refine ⟨t, hstep, congrArg State.status hframe, fun k hk => ?inside, fun a ha => ?outside, hframe⟩
  case inside =>
    rw [hbytes, dif_pos ⟨by omega, by omega⟩]
    simp only [Nat.add_sub_cancel_left]
  case outside => rw [hbytes, dif_neg (by omega)]

/-- Settles O6: the two codes, the Load of too long an image, and the report that performs no Load. -/
theorem loadErrorsCopyNothing : Obligations.LoadErrorsCopyNothing :=
  ⟨rfl, rfl, fun _ _ _ => step_load_of_tooLarge, fun _ _ => step_of_calls⟩

/-- Settles O7: each operation by the status it finds; a Reset does not look at it. -/
theorem outOfOrderOperations : Obligations.OutOfOrderOperations :=
  ⟨fun s _ rest hcalls hs => (step_of_calls hcalls).trans (cycle_of_not_running (s := { s with calls := rest }) hs),
    fun _ _ _ => step_load_of_not_unloaded, fun _ _ _ => step_of_calls⟩

/-! ### A cycle whose instruction does not fault -/

section
variable {s : State} {input : CycleInput} {rest : List HostCall} {i : Instr}

theorem State.executing_pc (input : CycleInput) (rest : List HostCall) (hpc : s.pc.toNat ≤ 0xFFD) :
    (s.executing input rest).pc.toNat = s.pc.toNat + 2 := by
  show (s.pc + 2).toNat = _
  bv_omega

theorem OnlyV.pc_eq {t : State} (h : OnlyV s t) : t.pc = s.pc := by
  obtain ⟨hframe, -⟩ := h
  rw [hframe]

/-- The timer step follows an instruction that leaves the status Running (R62). -/
theorem step_of_exec_running {u : State} (hrun : s.runsCycle input rest) (hpc : s.pc.toNat ≤ 0xFFD)
    (hi : s.decodedAtPc = .accept i) (hexec : exec i (s.executing input rest) = .next u) (hu : u.status = .running) :
    step s = .next u.timerStep := by
  have hend : u.endCycle = u.timerStep := State.endCycle_of_not_faulted fun r hr => by cases hu.symm.trans hr
  rw [step_of_runsCycle hrun hpc, hi, execute_accept hexec, hend]

end

/-- Settles O53: Fx15 leaves `lastTick` at the cycle's `now`, so that no tick is due; Fx18 leaves it as it was, and the
tick that is due falls on the fresh ST. -/
theorem fx15CyclesNeverDecrement : Obligations.Fx15CyclesNeverDecrement := by
  intro s input rest x hrun hpc
  refine ⟨fun hi => ?fx15, fun hi hgt => ?fx18⟩
  case fx15 =>
    have hnot : ¬ State.tickDue { s.executing input rest with DT := s.getV x, lastTick := input.now } = true :=
      State.not_tickDue (.inl (by simp [State.executing, Config.tickPeriod]))
    have hstep := step_of_exec_running hrun hpc hi rfl hrun.executing_status
    exact ⟨_, hstep.trans (congrArg _ (State.timerStep_of_not_due hnot)), rfl, rfl, rfl⟩
  case fx18 =>
    have hdue : State.tickDue { s.executing input rest with ST := s.getV x } = true :=
      (State.tickDue_iff _).mpr (.inl hgt)
    have hstep := step_of_exec_running hrun hpc hi rfl hrun.executing_status
    exact ⟨_, hstep.trans (congrArg _ (State.timerStep_of_due hdue)), decrement_toNat _, decrement_toNat _, rfl⟩

/-! ### The word at pc (R136) -/

theorem fetch16_congr {s t : State} (h : ∀ a, t.byteAt a = s.byteAt a) (a : Nat) : fetch16 t a = fetch16 s a := by
  simp only [fetch16, memRead, h]

theorem State.wordAtPc.congr {s t : State} {w : Word} (h : s.wordAtPc w) (hpc : t.pc = s.pc) (hmem : t.mem = s.mem)
    (hparams : t.params = s.params) : t.wordAtPc w := by
  unfold State.wordAtPc
  rw [hpc, fetch16_congr (State.byteAt_congr hmem hparams)]
  exact h

theorem State.wordAtPc.decodedAtPc {s : State} {i : Instr} (h : s.wordAtPc (encode i)) (hpc : s.pc.toNat ≤ 0xFFD)
    (hwf : WellFormed s.params i = true) : s.decodedAtPc = .accept i := by
  have hword : s.bytesAtPc = encode i := Except.ok.inj ((fetch16_of_lt s (by omega)).symm.trans h)
  rw [State.decodedAtPc, hword, decode_encode hwf]

/-! ### A cycle that comes back to its instruction (R133, R136) -/

theorem State.timerStep_frame (s : State) :
    s.timerStep = { s with DT := s.timerStep.DT, ST := s.timerStep.ST, lastTick := s.timerStep.lastTick } := by
  by_cases hdue : s.tickDue = true
  · rw [State.timerStep_of_due hdue]
  · rw [State.timerStep_of_not_due hdue]

/-- An instruction that only takes pc back to itself makes its cycle the timer step, after which the same word is at the
same pc. -/
theorem step_of_repeating {s : State} {input : CycleInput} {rest : List HostCall} {i : Instr}
    (hrun : s.runsCycle input rest) (hpc : s.pc.toNat ≤ 0xFFD) (hi : s.wordAtPc (encode i))
    (hwf : WellFormed s.params i = true)
    (hexec : exec i (s.executing input rest) = .next { s.executing input rest with pc := s.pc }) :
    ∃ t, step s = .next t ∧ t.pc = s.pc ∧ t.status = .running ∧ t.wordAtPc (encode i) ∧
      t = State.timerStep { s with changed := false, input := input, calls := rest } ∧
      t = { s with
        DT := t.DT, ST := t.ST, lastTick := t.lastTick, changed := false, input := input, calls := rest } := by
  have hstep := step_of_exec_running hrun hpc (hi.decodedAtPc hpc hwf) hexec hrun.executing_status
  refine ⟨_, hstep, ?pc, ?status, hi.congr ?pc' ?mem ?params, rfl, State.timerStep_frame _⟩
  case pc | pc' => exact State.timerStep_pc _
  case status => exact (State.timerStep_status _).trans hrun.executing_status
  case mem => exact State.timerStep_mem _
  case params => exact State.timerStep_params _

/-- Settles O56: a jump to its own address only takes pc back to itself. -/
theorem aSelfJumpIsForever : Obligations.ASelfJumpIsForever := by
  rintro s input rest ⟨-, nnn, hword, hnnn⟩ hpc hrun
  have htarget : zext16 nnn = s.pc := BitVec.eq_of_toNat_eq ((zext16_toNat nnn).trans hnnn.symm)
  have hexec : exec (.jp nnn) (s.executing input rest) = .next { s.executing input rest with pc := s.pc } := by
    rw [← htarget]
    rfl
  obtain ⟨t, hstep, hpc', hstatus, hword', htimer, hframe⟩ := step_of_repeating hrun hpc hword rfl hexec
  exact ⟨t, hstep, ⟨hstatus, nnn, hword', hpc' ▸ hnnn⟩, htimer, hframe⟩

/-- Settles O57: Fx0A without a key only takes pc back to itself, and with one writes a register and keeps the advance
of pc. -/
theorem aKeyWaitChangesTheTimersAlone : Obligations.AKeyWaitChangesTheTimersAlone := by
  rintro s input rest ⟨x, hword⟩ hpc hrun
  refine ⟨fun hnone => ?wait, fun ⟨k, hk⟩ => ?held⟩
  case wait =>
    have hexec : exec (.ldVK x) (s.executing input rest) = .next { s.executing input rest with pc := s.pc } := by
      have hpick : (s.executing input rest).pickKey = none := (State.pickKey_eq_none _).mpr hnone
      rw [exec_ldVK_of_no_key x hpick, ← State.executing_instrAddr s input rest]
      rfl
    obtain ⟨t, hstep, -, -, hword', htimer, hframe⟩ := step_of_repeating hrun hpc hword rfl hexec
    exact ⟨t, hstep, ⟨x, hword'⟩, htimer, hframe⟩
  case held =>
    obtain ⟨picked, hpick⟩ := Option.ne_none_iff_exists'.mp fun hnone =>
      ne_false_of_eq_true hk ((State.pickKey_eq_none (s.executing input rest)).mp hnone k)
    obtain ⟨u, hexec, -, -, honly⟩ := exec_ldVK_of_key x hpick
    have hu : u.status = .running := honly.status_eq.trans hrun.executing_status
    refine ⟨_, step_of_exec_running hrun hpc (hword.decodedAtPc hpc rfl) hexec hu, ?_⟩
    rw [State.timerStep_pc, honly.pc_eq]
    exact State.executing_pc input rest hpc

end Sys2Proof.Machine
